-- ==== Sys2Proof/Word.lean ====
section
/-! DEFINITION. The widths of the flxd telegram framer (00_scope.md R14). -/

namespace Sys2Proof

/-- A byte: a ring cell, `type`, `length`, a payload byte, a check byte (R14). -/
abbrev Byte := BitVec 8

/-- A 16-bit value: a checksum, a Fletcher accumulator, a counter fraction (R14, R91). -/
abbrev Half := BitVec 16

/-- A 32-bit value: a Q20.11 gauge or angle word, a counter's integer part (R14, R90, R91). -/
abbrev Word := BitVec 32

end Sys2Proof
end

