-- ==== Sys2Proof/Config.lean ====
section
/-! DEFINITION. The implementation parameters (00_scope.md R7 to R13): the fixed constants, and the record of the open ones,
which `State` carries unchanged, so that a statement about every state is about every configuration (log 1). -/

namespace Sys2Proof

/-- `SYNC`, the value of both marker bytes; fixed, not configurable (R8, R85). -/
def syncByte : Byte := 0xAA

/-- `CK_BLOCK`, the Fletcher block size; fixed (R9). -/
def ckBlock : Nat := 20

/-- The two values of `CK_INIT` (R10). -/
inductive CkInit where
  | x00
  | xFF
deriving DecidableEq, Repr

/-- The initial value of both Fletcher accumulators, zero-extended to 16 bits (R10, R111). -/
def CkInit.value : CkInit → Half
  | .x00 => 0x00
  | .xFF => 0xFF

/-- The two values of `ROUND_NEG` (R13). -/
inductive RoundNeg where
  | subHalf
  | addHalf
deriving DecidableEq, Repr

/-- The parameters the spec leaves open (R7, R10 to R13); none changes while the block runs (R30). -/
structure Config where
  /-- `C`, the ring capacity in bytes (R7). -/
  capacity : Nat
  /-- `CK_INIT` (R10). -/
  ckInit : CkInit
  /-- `MAX_FRAME`, the largest whole frame the encoder builds (R11). -/
  maxFrame : Nat
  /-- `RX_CHUNK`, the most bytes one RX.WRITE may carry (R12). -/
  rxChunk : Nat
  /-- `ROUND_NEG` (R13). -/
  roundNeg : RoundNeg
deriving DecidableEq, Repr

/-- The defaults of R7, R10, R11, R13. DESIGN CHOICE: R12 gives `RX_CHUNK` no value; 1023 never binds at `C = 1024` (log 1). -/
def Config.flxd : Config where
  capacity := 1024
  ckInit := .xFF
  maxFrame := 261
  rxChunk := 1023
  roundNeg := .subHalf

/-- The constraints every configuration meets (R7, R11, R12). -/
abbrev Config.Valid (c : Config) : Prop :=
  2 ≤ c.capacity ∧ 6 ≤ c.maxFrame ∧ c.maxFrame ≤ 261 ∧ 1 ≤ c.rxChunk

/-- Freedom from the capacity deadlock (R7, R268): every frame of 259 bytes fits in `C - 1` cells. -/
abbrev Config.DeadlockFree (c : Config) : Prop := 260 ≤ c.capacity

/-- `MAX_PAYLOAD = MAX_FRAME - 6` (R11). -/
def Config.maxPayload (c : Config) : Nat := c.maxFrame - 6

/-- `AW = ceil(log2(C))`, the width of an index (R7, R50). -/
def Config.addressBits (c : Config) : Nat := Nat.clog 2 c.capacity

end Sys2Proof
end

