-- ==== Sys2Proof/Machine/Checksum.lean ====
section
/-! DEFINITION. The Fletcher-16 function of 40_checksum.md: the reference algorithm of R111 over two 16-bit accumulators. -/

namespace Sys2Proof.Machine

/-- The two accumulators, which live only while one CK.F16 runs (R31). -/
structure Sums where
  sum1 : Half
  sum2 : Half
deriving DecidableEq, Repr

/-- `fold(s) = (s & 0xFF) + (s >> 8)` (R112). -/
def fold (s : Half) : Half := (s &&& (0xFF : Half)) + (s >>> 8)

/-- Both accumulators folded (R111, R113). -/
def Sums.folded (s : Sums) : Sums := ⟨fold s.sum1, fold s.sum2⟩

/-- One data byte, zero-extended, added into the running sums (R111, R120). -/
def Sums.addByte (s : Sums) (b : Byte) : Sums :=
  let sum1 := s.sum1 + b.zeroExtend 16
  ⟨sum1, s.sum2 + sum1⟩

/-- A run of bytes added with no fold between them (R111). -/
def Sums.addBytes : Sums → List Byte → Sums
  | s, [] => s
  | s, b :: bs => (s.addByte b).addBytes bs

/-- The loop of R111: while bytes remain, add at most `CK_BLOCK` of them and fold. The first argument bounds the number of
blocks; the number of bytes is always enough. -/
def f16Blocks : Nat → List Byte → Sums → Sums
  | 0, _, s => s
  | fuel + 1, d, s =>
    if d.isEmpty then s
    else f16Blocks fuel (d.drop ckBlock) (s.addBytes (d.take ckBlock)).folded

/-- `(sum2 << 8) | sum1` (R114). -/
def Sums.assemble (s : Sums) : Half := (s.sum2 <<< 8) ||| s.sum1

/-- CK.F16 (R111): the blocks from `CK_INIT`, the final reduction (R113) and the assembly (R114). -/
def f16 (init : CkInit) (d : List Byte) : Half :=
  (f16Blocks d.length d ⟨init.value, init.value⟩).folded.assemble

end Sys2Proof.Machine
end

