-- ==== Sys2Proof/Machine/Operands.lean ====
section
/-! DEFINITION. How operands are assembled from bytes and cut into bytes (30_encoding.md R84, R88, R89), and the two
signed readings of a word (00_scope.md R15, R16). -/

namespace Sys2Proof.Machine

/-- `(b0 << 8) | b1`: a 16-bit big-endian field, most significant byte first (R84, R88). -/
def beHalf (b0 b1 : Byte) : Half :=
  (b0.zeroExtend 16 <<< 8) ||| b1.zeroExtend 16

/-- `(b0 << 24) | (b1 << 16) | (b2 << 8) | b3`: a 32-bit big-endian field (R88). -/
def beWord (b0 b1 b2 b3 : Byte) : Word :=
  (b0.zeroExtend 32 <<< 24) ||| (b1.zeroExtend 32 <<< 16) ||| (b2.zeroExtend 32 <<< 8) ||| b3.zeroExtend 32

/-- `v[15:8]`, the byte sent first (R84). -/
def hiByte (v : Half) : Byte := v.extractLsb' 8 8

/-- `v[7:0]`, the byte sent second (R84). -/
def loByte (v : Half) : Byte := v.extractLsb' 0 8

/-- `sext_32(v)`, the signed value of a Q20.11 word (R16, R90). -/
def sext32 (v : Word) : Int := v.toInt

/-- `sext_16(v)`, the signed value of a 16-bit field (R16, R190). -/
def sext16 (v : Half) : Int := v.toInt

/-- `frame_size = zext_8(length) + 4`; the length byte is never sign-extended (R89). -/
def frameSize (length : Byte) : Nat := length.toNat + 4

end Sys2Proof.Machine
end

