-- ==== Sys2Proof/Machine/Frame.lean ====
section
/-! DEFINITION. The wire frame (30_encoding.md R80 to R84): how one is built, and how a candidate is cut out of the received
bytes that start at its `type` byte. -/

namespace Sys2Proof.Machine

/-- The covered bytes `type ‖ length ‖ payload` (R83, R131). -/
def frameBody (type : Byte) (payload : List Byte) : List Byte :=
  type :: BitVec.ofNat 8 payload.length :: payload

/-- The frame without its sync pair: the body and the two check bytes, high byte first (R82, R84). -/
def frameTail (init : CkInit) (type : Byte) (payload : List Byte) : List Byte :=
  let ck := f16 init (frameBody type payload)
  frameBody type payload ++ [hiByte ck, loByte ck]

/-- The whole wire frame `AA AA type length payload ck_hi ck_lo` (R80, R131). -/
def wireFrame (init : CkInit) (type : Byte) (payload : List Byte) : List Byte :=
  syncByte :: syncByte :: frameTail init type payload

/-- A complete candidate frame, as the header state sees it (R160, R161). -/
structure Candidate where
  type : Byte
  length : Byte
  payload : List Byte
  /-- The received checksum, `(checksum_hi << 8) | checksum_lo` (R84, R161). -/
  recv : Half
deriving DecidableEq, Repr

/-- Cuts a candidate out of the bytes from `type` on; none while fewer than `L + 4` bytes are there (R81, R97, R159). Bytes
after the candidate are left alone. -/
def parseCandidate : List Byte → Option Candidate
  | type :: length :: rest =>
    match rest.drop length.toNat with
    | hi :: lo :: _ => some ⟨type, length, rest.take length.toNat, beHalf hi lo⟩
    | _ => none
  | _ => none

/-- `calc`, the computed checksum of the candidate's covered bytes (R83, R161). -/
def Candidate.computed (init : CkInit) (f : Candidate) : Half :=
  f16 init (f.type :: f.length :: f.payload)

end Sys2Proof.Machine
end

