-- ==== Sys2Proof/Syntax.lean ====
section
/-! DEFINITION. The operations of the block (30_encoding.md R94), the requests that select them, the moves of the agents and
the outcomes of RX.STEP. `Instr` has one constructor per row of spec/opcode_table.json, in the table's order. -/

namespace Sys2Proof

/-- The sync-machine state (10_state.md R24). -/
inductive SyncState where
  | awaitSync1
  | awaitSync2
  | awaitHeader
deriving DecidableEq, Repr

/-- LINK's answer to a TX.WRITE, a draw of the environment (41_tx_encoder.md R135). -/
inductive LinkAnswer where
  | success
  | failure
deriving DecidableEq, Repr

/-- The eight outcomes of RX.STEP (42_rx_framer.md R153). -/
inductive RxOutcome where
  | s1hit
  | s1miss
  | s2hit
  | s2miss
  | stopempty
  | hdrwait
  | frameok
  | framebad
deriving DecidableEq, Repr

/-- An outcome marked *stop* changes nothing and ends the drain loop (R153). -/
def RxOutcome.isStop : RxOutcome → Bool
  | .stopempty => true
  | .hdrwait => true
  | .s1hit => false
  | .s1miss => false
  | .s2hit => false
  | .s2miss => false
  | .frameok => false
  | .framebad => false

/-- An operation of the block (R94). -/
inductive Instr where
  /-- RX.STEP.S1HIT (R154). -/
  | rxStepS1hit
  /-- RX.STEP.S1MISS (R155). -/
  | rxStepS1miss
  /-- RX.STEP.S2HIT (R156). -/
  | rxStepS2hit
  /-- RX.STEP.S2MISS (R157). -/
  | rxStepS2miss
  /-- RX.STEP.STOPEMPTY (R158). -/
  | rxStepStopempty
  /-- RX.STEP.HDRWAIT (R159). -/
  | rxStepHdrwait
  /-- RX.STEP.FRAMEOK (R162). -/
  | rxStepFrameok
  /-- RX.STEP.FRAMEBAD (R163). -/
  | rxStepFramebad
  /-- TX.ENCODE (R131). -/
  | txEncode (type : Byte) (payload : List Byte)
  /-- TX.ENCODE.TOOLARGE: the type and the payload length `n` (R132). -/
  | txEncodeToolarge (type : Byte) (n : Nat)
  /-- TX.WRITE: the frame, and the answer LINK draws (R135). -/
  | txWrite (frame : List Byte) (answer : LinkAnswer)
  /-- CK.F16 of a byte list (R110). -/
  | ckF16 (d : List Byte)
  /-- RX.WRITE of a byte list (R151). -/
  | rxWrite (v : List Byte)
  /-- RX.DRAIN (R165). -/
  | rxDrain
  /-- PL.READ of payload byte `k` (R167). -/
  | plRead (k : Nat)
  /-- FX.BE16 (R190). -/
  | fxBe16 (b0 b1 : Byte)
  /-- FX.BE32 (R191). -/
  | fxBe32 (b0 b1 b2 b3 : Byte)
  /-- FX.MILLI: fractional width `w` and fraction `f` (R192). -/
  | fxMilli (w f : Nat)
  /-- FX.GAUGE of a Q20.11 word (R194). -/
  | fxGauge (v : Word)
  /-- FX.COUNTER: integer part and fraction (R195). -/
  | fxCounter (ip : Word) (fp : Half)
  /-- FX.DIGITS3 of a millesimal value (R196). -/
  | fxDigits3 (f : Nat)
  /-- FX.ROUND11 of a Q20.11 word (R197). -/
  | fxRound11 (x : Word)
  /-- RESET (R260). -/
  | reset
deriving DecidableEq, Repr

/-- The operation of the table that an RX.STEP outcome is (R153). -/
def RxOutcome.toInstr : RxOutcome → Instr
  | .s1hit => .rxStepS1hit
  | .s1miss => .rxStepS1miss
  | .s2hit => .rxStepS2hit
  | .s2miss => .rxStepS2miss
  | .stopempty => .rxStepStopempty
  | .hdrwait => .rxStepHdrwait
  | .frameok => .rxStepFrameok
  | .framebad => .rxStepFramebad

/-- A request as it stands on a port (R94, R150, R130): the port, and the operands presented there. -/
inductive Request where
  /-- Port `rx`: PROD presents bytes. -/
  | rx (v : List Byte)
  /-- FRM runs the drain loop. -/
  | drain
  /-- Port `enc`: HOST asks for a frame. -/
  | enc (type : Byte) (payload : List Byte)
  /-- Port `tx`: LINK carries a frame and answers. -/
  | tx (frame : List Byte) (answer : LinkAnswer)
  /-- Port `ck`. -/
  | ck (d : List Byte)
  /-- Port `pl`: HOST reads a payload byte. -/
  | pl (k : Nat)
  /-- Port `fx`, function `be16`. -/
  | be16 (b0 b1 : Byte)
  /-- Port `fx`, function `be32`. -/
  | be32 (b0 b1 b2 b3 : Byte)
  /-- Port `fx`, function `milli`. -/
  | milli (w f : Nat)
  /-- Port `fx`, function `gauge`. -/
  | gauge (v : Word)
  /-- Port `fx`, function `counter`. -/
  | counter (ip : Word) (fp : Half)
  /-- Port `fx`, function `digits3`. -/
  | digits3 (f : Nat)
  /-- Port `fx`, function `round11`. -/
  | round11 (x : Word)
  /-- The reset input. -/
  | reset
deriving DecidableEq, Repr

/-- A move of an agent (R17): FRM takes an RX.STEP, or a request is made on a port. -/
inductive Move where
  | frm
  | port (r : Request)
deriving DecidableEq, Repr

/-- What the decoder is given (R94, R95): bytes of the received stream with the sync state that says how they are read, a whole
wire frame as TX.ENCODE's row pictures it, or a request on a port, which carries no bits to decode. -/
inductive Encoding where
  | stream (s : SyncState) (bytes : List Byte)
  | frame (bytes : List Byte)
  | port (r : Request)
deriving DecidableEq, Repr

end Sys2Proof
end

