-- ==== Sys2Proof/WellFormed.lean ====
section
/-! DEFINITION. Which operations are inside the domain their rule gives their operands (00_scope.md R18). -/

namespace Sys2Proof

/-- A frame that TX.ENCODE builds under the configuration (R131, R135). -/
def isBuiltFrame (c : Config) (frame : List Byte) : Bool :=
  match frame with
  | _ :: _ :: type :: length :: rest =>
    let payload := rest.take length.toNat
    decide (payload.length ≤ c.maxPayload) && decide (frame = Machine.wireFrame c.ckInit type payload)
  | _ => false

/-- The operand checks: the payload bound of R131 and R132, a frame of the encoder for TX.WRITE (R135), `1 <= n` and the two
limits no state can lift for RX.WRITE (R151, R54), `k < L <= 255` for PL.READ (R167), and the FX domains (R192, R196). -/
def WellFormed (c : Config) : Instr → Bool
  | .rxStepS1hit => true
  | .rxStepS1miss => true
  | .rxStepS2hit => true
  | .rxStepS2miss => true
  | .rxStepStopempty => true
  | .rxStepHdrwait => true
  | .rxStepFrameok => true
  | .rxStepFramebad => true
  | .txEncode _ payload => decide (payload.length ≤ c.maxPayload)
  | .txEncodeToolarge _ n => decide (c.maxPayload < n)
  | .txWrite frame _ => isBuiltFrame c frame
  | .ckF16 _ => true
  | .rxWrite v => decide (1 ≤ v.length) && decide (v.length ≤ c.rxChunk) && decide (v.length ≤ c.capacity - 1)
  | .rxDrain => true
  | .plRead k => decide (k < 255)
  | .fxBe16 _ _ => true
  | .fxBe32 _ _ _ _ => true
  | .fxMilli w f => decide (3 ≤ w) && decide (w ≤ 32) && decide (f < 2 ^ w)
  | .fxGauge _ => true
  | .fxCounter _ _ => true
  | .fxDigits3 f => decide (f ≤ 999)
  | .fxRound11 _ => true
  | .reset => true

end Sys2Proof
end

