-- ==== Sys2Proof/Decode.lean ====
section
/-! DEFINITION. The decoder and the encoder (30_encoding.md R80, R94 to R97; 42_rx_framer.md R153). Three things are decoded:
the received stream, whose bytes mean what `state` says (R95); the wire frame, which is the bit pattern of TX.ENCODE's row; and a
request on a port, which is selected by its port and operands, since no command word exists (R94). Nothing in the stream is
rejected (R96); the other two reject by name. -/

namespace Sys2Proof

open Machine

/-- Why an encoding stands for no operation. -/
inductive DecodeError where
  /-- A frame image whose first two bytes are not `AA AA` (R80). Safe: no operation is invented for it. -/
  | noMarker
  /-- A frame image whose size is not `length + 6` (R82). Safe: no operation is invented for it. -/
  | frameLength
  /-- A request on port `rx` with no bytes: "A request with `n = 0` is not an operation" (R152). Safe. -/
  | emptyWrite
deriving DecidableEq, Repr

/-- The decoder's map of the byte stream (R95, R153). `bytes` are the buffered bytes, oldest first, as far as they are needed; an
incomplete header or frame is HDRWAIT (R159). -/
def decodeStream (c : Config) : SyncState → List Byte → RxOutcome
  | .awaitSync1, [] => .stopempty
  | .awaitSync1, b :: _ => if b = syncByte then .s1hit else .s1miss
  | .awaitSync2, [] => .stopempty
  | .awaitSync2, b :: _ => if b = syncByte then .s2hit else .s2miss
  | .awaitHeader, bytes =>
    match parseCandidate bytes with
    | none => .hdrwait
    | some f => if f.computed c.ckInit = f.recv then .frameok else .framebad

/-- A request on port `enc`: the length check is made first (R131, R132, R231). -/
def decodeEnc (c : Config) (type : Byte) (payload : List Byte) : Instr :=
  if payload.length ≤ c.maxPayload then .txEncode type payload
  else .txEncodeToolarge type payload.length

/-- A frame image read back into the encode request it pictures (R80): marker pair, `type`, `length`, payload. The two check
bytes are what TX.ENCODE computes, not its operands, so they are not tested here. -/
def decodeFrame (c : Config) : List Byte → Except DecodeError Instr
  | s1 :: s2 :: type :: length :: rest =>
    if s1 = syncByte ∧ s2 = syncByte then
      if rest.length = length.toNat + 2 then .ok (decodeEnc c type (rest.take length.toNat))
      else .error .frameLength
    else .error .noMarker
  | _ => .error .frameLength

/-- A request on a port selects its operation (R94). -/
def decodeRequest (c : Config) : Request → Except DecodeError Instr
  | .rx v => if v.isEmpty then .error .emptyWrite else .ok (.rxWrite v)
  | .drain => .ok .rxDrain
  | .enc type payload => .ok (decodeEnc c type payload)
  | .tx frame answer => .ok (.txWrite frame answer)
  | .ck d => .ok (.ckF16 d)
  | .pl k => .ok (.plRead k)
  | .be16 b0 b1 => .ok (.fxBe16 b0 b1)
  | .be32 b0 b1 b2 b3 => .ok (.fxBe32 b0 b1 b2 b3)
  | .milli w f => .ok (.fxMilli w f)
  | .gauge v => .ok (.fxGauge v)
  | .counter ip fp => .ok (.fxCounter ip fp)
  | .digits3 f => .ok (.fxDigits3 f)
  | .round11 x => .ok (.fxRound11 x)
  | .reset => .ok .reset

/-- The decoder: total, and rejecting by name. -/
def decode (c : Config) : Encoding → Except DecodeError Instr
  | .stream s bytes => .ok (decodeStream c s bytes).toInstr
  | .frame bytes => decodeFrame c bytes
  | .port r => decodeRequest c r

/-- The encoder. A stream operation has many encodings (R95); this is one of each: the table's match value for S1MISS and
S2MISS, no byte for STOPEMPTY and HDRWAIT, the shortest frame (R82) for FRAMEOK, and that frame with `checksum_hi` inverted for
FRAMEBAD. TX.ENCODE's is the frame it builds (R131). DESIGN CHOICE (log 13). -/
def encode (c : Config) : Instr → Encoding
  | .rxStepS1hit => .stream .awaitSync1 [syncByte]
  | .rxStepS1miss => .stream .awaitSync1 [0x00]
  | .rxStepS2hit => .stream .awaitSync2 [syncByte]
  | .rxStepS2miss => .stream .awaitSync2 [0x00]
  | .rxStepStopempty => .stream .awaitSync1 []
  | .rxStepHdrwait => .stream .awaitHeader []
  | .rxStepFrameok => .stream .awaitHeader (frameTail c.ckInit 0x00 [])
  | .rxStepFramebad =>
    let ck := f16 c.ckInit (frameBody 0x00 [])
    .stream .awaitHeader (frameBody 0x00 [] ++ [~~~hiByte ck, loByte ck])
  | .txEncode type payload => .frame (wireFrame c.ckInit type payload)
  | .txEncodeToolarge type n => .port (.enc type (List.replicate n 0x00))
  | .txWrite frame answer => .port (.tx frame answer)
  | .ckF16 d => .port (.ck d)
  | .rxWrite v => .port (.rx v)
  | .rxDrain => .port .drain
  | .plRead k => .port (.pl k)
  | .fxBe16 b0 b1 => .port (.be16 b0 b1)
  | .fxBe32 b0 b1 b2 b3 => .port (.be32 b0 b1 b2 b3)
  | .fxMilli w f => .port (.milli w f)
  | .fxGauge v => .port (.gauge v)
  | .fxCounter ip fp => .port (.counter ip fp)
  | .fxDigits3 f => .port (.digits3 f)
  | .fxRound11 x => .port (.round11 x)
  | .reset => .port .reset

/-- The 16-bit words of a table number, first word in the low bits, each stored high byte first, as the table numbers the header
(`type` in bits 15:8 is the byte at `tail`). -/
def tableWords : Nat → Nat → List Byte
  | 0, _ => []
  | n + 1, w => BitVec.ofNat 8 (w / 256) :: BitVec.ofNat 8 w :: tableWords n (w / 65536)

/-- `bytes` followed by zero bytes up to `n` bytes. -/
def padZeros (n : Nat) (bytes : List Byte) : List Byte :=
  bytes ++ List.replicate (n - bytes.length) 0x00

/-- What the bits of a row stand for: no bits, an empty stream; one byte, a stream byte in the state after reset; words that begin
`AA AA`, the frame of TX.ENCODE; any other words, a candidate frame in AwaitHeader. Bytes the row has no bits for are zero
(DESIGN CHOICE, log 13). -/
def tableEncoding (nbits w : Nat) : Encoding :=
  if nbits = 0 then .stream .awaitSync1 []
  else if nbits ≤ 8 then .stream .awaitSync1 [BitVec.ofNat 8 w]
  else
    match padZeros 4 (tableWords ((nbits + 15) / 16) w) with
    | b0 :: b1 :: b2 :: b3 :: rest =>
      if b0 = syncByte ∧ b1 = syncByte then
        .frame (b0 :: b1 :: b2 :: b3 :: (padZeros (b3.toNat + 2) rest).take (b3.toNat + 2))
      else .stream .awaitHeader (b0 :: b1 :: padZeros (b1.toNat + 2) (b2 :: b3 :: rest))
    | bytes => .stream .awaitHeader bytes

/-- The operation the decoder reads from the bits of a table row, under the default configuration. -/
def decodeTableWord (nbits w : Nat) : Option Instr :=
  match decode Config.flxd (tableEncoding nbits w) with
  | .ok i => some i
  | .error _ => none

end Sys2Proof
end

