-- ==== Sys2Proof/Machine/State.lean ====
section
/-! DEFINITION. The state of the machine (10_state.md), the events and responses it reports, why a step can stop, and the state
after reset (R36, R260). -/

namespace Sys2Proof.Machine

/-- The complete list of reports (60_exceptions.md R220), in the order of the spec's ordinals. -/
inductive Event where
  /-- 0: a valid frame was received (R162, R168). -/
  | telegram (type length : Byte) (payload : List Byte)
  /-- 1: a candidate frame failed its checksum (R163, R221). -/
  | ckFault (type length : Byte) (recv computed : Half)
  /-- 2: "malformed length"; never raised by this block (R222). -/
  | lenFault
  /-- 3: "unknown telegram type"; the HOST's, silent, never an event of this block (R223). -/
  | typeFault
  /-- 4: payload too large for the encoder (R132, R224). -/
  | encodeFault (type : Byte) (n : Nat)
  /-- 5: a device read failed upstream; no event of this block (R225). -/
  | ioReadFault
  /-- 6: LINK failed to deliver a frame (R135, R226). -/
  | ioWriteFault
  /-- 7: out of scope, never raised (R227). -/
  | persistFault
  /-- 8: a frame was built and handed over (R131). -/
  | txFrame (frame : List Byte)
deriving DecidableEq, Repr

/-- A response on one of the ports `ck`, `fx`, `pl` (R94). The response on port `enc` is its event (R230). -/
inductive Result where
  | f16 (ck : Half)
  | payloadByte (b : Byte)
  | be16 (v : Half)
  | be32 (v : Word)
  | milli (f : Nat)
  | gauge (i : Int) (f : Nat)
  | counter (i : Nat) (f : Nat)
  | digits3 (d2 d1 d0 : Nat)
  | round11 (alpha : Int)
deriving DecidableEq, Repr

/-- `BUF` as the list of its cells that have a value, addresses strictly rising (R21, R36). -/
abbrev Memory := List Host.Cell

/-- The machine. `buf`, `head`, `tail`, `sync` and `out` are the record of R20; `cfg` holds the constants of R30; `delivery` and
`handed` are what is in progress (R279); `inputs`, `results`, `sent` and `accepted` are the model's own (log 2, 3, 10, 22). -/
structure State where
  /-- The configuration, fixed while the block runs (R30). -/
  cfg : Config
  /-- `BUF` (R21). An unlisted cell has no value (R36). -/
  buf : Memory
  /-- `head`, the next write position (R22). -/
  head : Nat
  /-- `tail`, the next read position (R23). -/
  tail : Nat
  /-- `state`, the sync-machine state (R24). -/
  sync : SyncState
  /-- `OUT`, oldest event first (R34). -/
  out : List Event
  /-- The payload length of the Telegram that is being delivered (R66, R167); none between operations. -/
  delivery : Option Nat
  /-- MODEL: the moves the agents make next, in order (R2, R17; log 2). -/
  inputs : List Move
  /-- MODEL: the responses given on ports `ck`, `fx` and `pl`, oldest first (log 3). -/
  results : List Result
  /-- Frames handed to LINK and not yet answered, oldest first (R135, R136, R279). -/
  handed : List (List Byte)
  /-- MODEL: frames LINK has reported as gone out whole, oldest first (R135; log 10). -/
  sent : List (List Byte)
  /-- MODEL: the bytes RX.WRITEs have accepted since the last RESET, oldest first (R170, R279 (a); log 22). -/
  accepted : List Byte
deriving DecidableEq, Repr

/-- Why the machine stops with a fault. No fault of the spec's own stops the machine (R228): those are events. -/
inductive Fault where
  /-- Raised by a read of a ring cell that nothing has written since reset: "a read of one is a model fault that no reachable
  state produces" (R36). Safe: the hardware would go on with an unspecified byte. -/
  | unwrittenCell (a : Nat)
  /-- Raised by an access to an index outside `0 .. C-1`, which does not exist (R50). Safe: no reachable state makes one. -/
  | outsideRing (a : Nat)
deriving DecidableEq, Repr

/-- Why a request gets no meaning: *Refused* of R18, "the request is outside the operation's domain; the model gives it no
meaning". Each is safe: no behaviour is claimed for it. -/
inductive Refusal where
  /-- Raised only by an arm of `exec` that has no meaning yet. Safe. -/
  | notModelled (mnemonic : String)
  /-- Raised by `step` for an encoding that stands for no operation. Safe. -/
  | undecodable (e : DecodeError)
  /-- Raised by RX.WRITE with no bytes, which "is not an operation" (R152). Safe. -/
  | emptyWrite
  /-- Raised by PL.READ outside the delivery of a Telegram: "Outside that window it is refused" (R167). Safe. -/
  | windowClosed
  /-- Raised by PL.READ with `k >= L` (R167). Safe. -/
  | payloadIndex (k : Nat)
  /-- Raised by TX.ENCODE.TOOLARGE with a length that is not too large (R132). Safe. -/
  | payloadFits (n : Nat)
  /-- Raised by TX.WRITE of a frame that TX.ENCODE has not handed over (R135). Safe. -/
  | frameNotHanded
  /-- Raised by FX.MILLI with `w` outside 3 .. 32 (R192). Safe. -/
  | milliWidth (w : Nat)
  /-- Raised by FX.MILLI with `f >= 2^w` (R192). Safe. -/
  | milliFraction (w f : Nat)
  /-- Raised by FX.DIGITS3 with `F > 999` (R196). Safe. -/
  | digitsRange (f : Nat)
deriving DecidableEq, Repr

/-- The machine right after reset (R36, R260): no cell has a value, `head = tail = 0`, AwaitSync1, `OUT` empty, nothing in
progress (R281). The configuration is the default one (log 1). -/
def State.reset : State where
  cfg := Config.flxd
  buf := []
  head := 0
  tail := 0
  sync := .awaitSync1
  out := []
  delivery := none
  inputs := []
  results := []
  handed := []
  sent := []
  accepted := []

end Sys2Proof.Machine
end

