-- ==== Sys2Proof/Machine/Ops.lean ====
section
/-! DEFINITION. The shared operations: the ring and its two access primitives (20_memory.md), the indices, reporting an event
and raising a fault (R16, R232), responses, and the framer's fetch. -/

namespace Sys2Proof.Machine


/-- The value of a cell, if it has one. -/
def Memory.read : Memory → Nat → Option Byte
  | [], _ => none
  | (x, y) :: m, a => if x = a then some y else Memory.read m a

/-- Writes one cell and keeps the addresses strictly rising. -/
def Memory.write : Memory → Nat → Byte → Memory
  | [], a, b => [(a, b)]
  | (x, y) :: m, a, b =>
    if a < x then (a, b) :: (x, y) :: m
    else if a = x then (a, b) :: m
    else (x, y) :: Memory.write m a b

/-- Writes the bytes to consecutive cells, the first at `a` (R53). -/
def Memory.writeBytes : Memory → Nat → List Byte → Memory
  | m, _, [] => m
  | m, a, b :: bs => Memory.writeBytes (Memory.write m a b) (a + 1) bs

/-- The canonical form: addresses strictly rising. No entry can equal what an unlisted cell reads as, which is no value. -/
def Memory.wf : Memory → Bool
  | [] => true
  | [_] => true
  | p :: q :: m => decide (p.1 < q.1) && Memory.wf (q :: m)

/-- `fill = (head - tail) mod C` (R25). -/
def State.fill (s : State) : Nat :=
  (s.head + (s.cfg.capacity - s.tail)) % s.cfg.capacity

/-- `rx_space = min(C - 1 - fill, C - head)` (R54). -/
def State.rxSpace (s : State) : Nat :=
  min (s.cfg.capacity - 1 - s.fill) (s.cfg.capacity - s.head)

/-- `(a + k) mod C` (R51). -/
def State.wrap (s : State) (a : Nat) : Nat := a % s.cfg.capacity

/-- Reads `BUF[a]` (R50): a cell without a value and an index outside the ring fault (R36). -/
def State.readCell (s : State) (a : Nat) : Except Fault Byte :=
  if a < s.cfg.capacity then
    match s.buf.read a with
    | some b => .ok b
    | none => .error (.unwrittenCell a)
  else .error (.outsideRing a)

/-- `RingRead(a, n)`: the `n` bytes from `a` on, each index reduced mod `C` (R52). -/
def State.ringRead (s : State) : Nat → Nat → Except Fault (List Byte)
  | _, 0 => .ok []
  | a, n + 1 =>
    match s.readCell (s.wrap a) with
    | .error f => .error f
    | .ok b =>
      match s.ringRead (a + 1) n with
      | .error f => .error f
      | .ok bs => .ok (b :: bs)

/-- `RingWrite(a, v)` with `a + n <= C`; it never wraps (R53). -/
def State.ringWrite (s : State) (a : Nat) (v : List Byte) : Except Fault State :=
  if a + v.length ≤ s.cfg.capacity then .ok { s with buf := s.buf.writeBytes a v }
  else .error (.outsideRing (a + v.length - 1))

/-- The buffered bytes, oldest first (R25). -/
def State.buffered (s : State) : Except Fault (List Byte) := s.ringRead s.tail s.fill

/-- Appends an event to `OUT`: *emit* of R16. -/
def State.emit (s : State) (e : Event) : State := { s with out := s.out ++ [e] }

/-- *raise* of R16, and the whole of fault entry (R232): the event goes to `OUT`; no handler, vector or saved context exists, and
the operation goes on by its own rule. There is nothing to return from (R234). -/
def State.raise (s : State) (e : Event) : State := s.emit e

/-- Gives a response on a port. -/
def State.respond (s : State) (r : Result) : State := { s with results := s.results ++ [r] }

/-- `tail <- (tail + n) mod C; state <- sync`: how RX.STEP consumes bytes (R28). -/
def State.consume (s : State) (n : Nat) (sync : SyncState) : State :=
  { s with tail := s.wrap (s.tail + n), sync := sync }

/-- *Hold* of R18: the operation is not enabled in the present state and nothing changes. -/
def hold (s : State) : Host.Outcome State Fault Refusal := .next s

/-- The framer's fetch (R64), reading only what R65 allows: one byte in the sync states if there is one; in AwaitHeader nothing
below 4 buffered bytes, the length byte alone while the frame is incomplete, and then the whole candidate. -/
def rxFetch (s : State) : Except Fault (List Byte) :=
  match s.sync with
  | .awaitHeader =>
    if s.fill < 4 then .ok []
    else
      match s.readCell (s.wrap (s.tail + 1)) with
      | .error f => .error f
      | .ok length =>
        if s.fill < frameSize length then .ok [] else s.ringRead s.tail (frameSize length)
  | _ => if s.fill = 0 then .ok [] else s.ringRead s.tail 1

/-- The outcome RX.STEP takes in this state (R153). -/
def rxOutcome (s : State) : Except Fault RxOutcome :=
  match rxFetch s with
  | .error f => .error f
  | .ok bytes => .ok (decodeStream s.cfg s.sync bytes)

/-- Runs an outcome of RX.STEP if it is the one this state selects, on the fetched bytes, and holds otherwise (R18, R153;
log 8). -/
def whenSelected (o : RxOutcome) (s : State) (k : List Byte → Host.Outcome State Fault Refusal) :
    Host.Outcome State Fault Refusal :=
  match rxFetch s with
  | .error f => .fault f
  | .ok bytes => if decodeStream s.cfg s.sync bytes = o then k bytes else hold s

/-- What the block is asked to do next, and the state with that request taken off the ports (log 2). With no move listed, or
when the move is FRM's, the framer fetches from the stream (R166). -/
def fetch (s : State) : Except Fault (Encoding × State) :=
  match s.inputs with
  | [] =>
    match rxFetch s with
    | .error f => .error f
    | .ok bytes => .ok (.stream s.sync bytes, s)
  | .frm :: rest =>
    match rxFetch s with
    | .error f => .error f
    | .ok bytes => .ok (.stream s.sync bytes, { s with inputs := rest })
  | .port r :: rest => .ok (.port r, { s with inputs := rest })

/-- Stores bytes circularly from `a` on, as many RX.WRITEs would (used to place a table row's bits). -/
def State.place (s : State) : Nat → List Byte → State
  | _, [] => s
  | a, b :: bs => State.place { s with buf := s.buf.write (s.wrap a) b } (a + 1) bs

end Sys2Proof.Machine
end

