-- ==== Sys2Proof/Machine/Ck.lean ====
section
/-! DEFINITION. CK (40_checksum.md): CK.F16 on port `ck`. -/

namespace Sys2Proof.Machine

/-- CK.F16 of a byte list: a pure function whose value is the response (R110, R111). -/
def execCkF16 (d : List Byte) (s : State) : Host.Outcome State Fault Refusal :=
  .next (s.respond (.f16 (f16 s.cfg.ckInit d)))

end Sys2Proof.Machine
end

