-- ==== Sys2Proof/Machine/Fx.lean ====
section
/-! DEFINITION. FX, the fixed-point-to-decimal converter (43_fixed_point.md): pure functions, and the operations that answer
with them. -/

namespace Sys2Proof.Machine

/-- `(f * 125) >> (w - 3)`, the product in full, truncated (R192). -/
def milli (w f : Nat) : Nat := (f * 125) >>> (w - 3)

/-- The integer part of a Q20.11 word: an arithmetic right shift by 11 (R194). -/
def gaugeInt (v : Word) : Int := sext32 v >>> (11 : Nat)

/-- The fraction bits of a Q20.11 word, `x & 0x7FF` (R194). -/
def gaugeBits (v : Word) : Nat := (v &&& 0x7FF).toNat

/-- The rounding of a Q20.11 angle to whole degrees (R197, C2). -/
def round11 (r : RoundNeg) (v : Word) : Int :=
  let x := sext32 v
  if 0 ≤ x then (x + 1024) >>> (11 : Nat)
  else
    match r with
    | .subHalf => (x - 1024) >>> (11 : Nat)
    | .addHalf => (x + 1024) >>> (11 : Nat)

/-- FX.BE16 (R190). -/
def execFxBe16 (b0 b1 : Byte) (s : State) : Host.Outcome State Fault Refusal :=
  .next (s.respond (.be16 (beHalf b0 b1)))

/-- FX.BE32 (R191). -/
def execFxBe32 (b0 b1 b2 b3 : Byte) (s : State) : Host.Outcome State Fault Refusal :=
  .next (s.respond (.be32 (beWord b0 b1 b2 b3)))

/-- FX.MILLI; outside `3 <= w <= 32`, `f < 2^w` it is refused (R192). -/
def execFxMilli (w f : Nat) (s : State) : Host.Outcome State Fault Refusal :=
  if 3 ≤ w ∧ w ≤ 32 then
    if f < 2 ^ w then .next (s.respond (.milli (milli w f)))
    else .refused (.milliFraction w f)
  else .refused (.milliWidth w)

/-- FX.GAUGE (R194). -/
def execFxGauge (v : Word) (s : State) : Host.Outcome State Fault Refusal :=
  .next (s.respond (.gauge (gaugeInt v) (milli 11 (gaugeBits v))))

/-- FX.COUNTER: the integer part unchanged and unsigned, the fraction with `w = 16` (R195). -/
def execFxCounter (ip : Word) (fp : Half) (s : State) : Host.Outcome State Fault Refusal :=
  .next (s.respond (.counter ip.toNat (milli 16 fp.toNat)))

/-- FX.DIGITS3, most significant digit first; `F > 999` is refused (R196). -/
def execFxDigits3 (f : Nat) (s : State) : Host.Outcome State Fault Refusal :=
  if f ≤ 999 then .next (s.respond (.digits3 (f / 100) (f / 10 % 10) (f % 10)))
  else .refused (.digitsRange f)

/-- FX.ROUND11 with the configured `ROUND_NEG` (R197). -/
def execFxRound11 (x : Word) (s : State) : Host.Outcome State Fault Refusal :=
  .next (s.respond (.round11 (round11 s.cfg.roundNeg x)))

end Sys2Proof.Machine
end

