-- ==== Sys2Proof/Machine/Reset.lean ====
section
/-! DEFINITION. RESET (70_reset_and_hazards.md R260). -/

namespace Sys2Proof.Machine

/-- RESET: the receive record as after reset, `BUF` unspecified, a new empty `OUT`, and with it a new record of the accepted bytes
(R260; log 22). What lies outside the block stays: the
configuration (R30), the frames LINK holds and has sent (R261), the agents' further moves and the responses already given. -/
def execReset (s : State) : Host.Outcome State Fault Refusal :=
  .next { s with
    buf := State.reset.buf, head := State.reset.head, tail := State.reset.tail, sync := State.reset.sync
    out := State.reset.out, delivery := State.reset.delivery, accepted := State.reset.accepted }

end Sys2Proof.Machine
end

