-- ==== Sys2Proof/Machine/Rx.lean ====
section
/-! DEFINITION. RX (42_rx_framer.md): RX.WRITE, the eight outcomes of RX.STEP, RX.DRAIN and PL.READ. -/

namespace Sys2Proof.Machine

/-- RX.STEP.S1HIT: consume the first marker byte, to AwaitSync2 (R154). -/
def execRxStepS1hit (s : State) : Host.Outcome State Fault Refusal :=
  whenSelected .s1hit s fun _ => .next (s.consume 1 .awaitSync2)

/-- RX.STEP.S1MISS: skip the byte, stay in AwaitSync1 (R155). -/
def execRxStepS1miss (s : State) : Host.Outcome State Fault Refusal :=
  whenSelected .s1miss s fun _ => .next (s.consume 1 .awaitSync1)

/-- RX.STEP.S2HIT: consume the second marker byte, to AwaitHeader (R156). -/
def execRxStepS2hit (s : State) : Host.Outcome State Fault Refusal :=
  whenSelected .s2hit s fun _ => .next (s.consume 1 .awaitHeader)

/-- RX.STEP.S2MISS: skip the byte, back to AwaitSync1 (R157). -/
def execRxStepS2miss (s : State) : Host.Outcome State Fault Refusal :=
  whenSelected .s2miss s fun _ => .next (s.consume 1 .awaitSync1)

/-- RX.STEP.STOPEMPTY: nothing changes (R158). -/
def execRxStepStopempty (s : State) : Host.Outcome State Fault Refusal :=
  whenSelected .stopempty s fun _ => .next s

/-- RX.STEP.HDRWAIT: nothing changes (R159). -/
def execRxStepHdrwait (s : State) : Host.Outcome State Fault Refusal :=
  whenSelected .hdrwait s fun _ => .next s

/-- PL.READ(k) (R167): in an open window, payload byte `k` is `BUF[(tail + 2 + k) mod C]`; no state of the block changes. -/
def readPayload (k : Nat) (s : State) : Host.Outcome State Fault Refusal :=
  match s.delivery with
  | none => .refused .windowClosed
  | some length =>
    if k < length then
      match s.readCell (s.wrap (s.tail + 2 + k)) with
      | .error f => .fault f
      | .ok b => .next (s.respond (.payloadByte b))
    else .refused (.payloadIndex k)

/-- The HOST's PL.READs inside a delivery: the requests that stand next on the ports and are reads of the open window are served,
in order; the first other move ends the delivery (R66, R167, R276; log 6). -/
def serveReads : List Move → State → State
  | .port (.pl k) :: rest, s =>
    match readPayload k { s with inputs := rest } with
    | .next s' => serveReads rest s'
    | .fault _ => s
    | .refused _ => s
  | _, s => s

/-- The Telegram is emitted while `tail` still points at the type byte, and PL.READ is open (R162, R66). -/
def openDelivery (f : Candidate) (s : State) : State :=
  { s.emit (.telegram f.type f.length f.payload) with delivery := some f.length.toNat }

/-- The window is closed (R66). -/
def closeDelivery (s : State) : State := { s with delivery := none }

/-- The delivery of a Telegram, all inside one operation (R59, R162, R167). -/
def deliver (f : Candidate) (s : State) : State :=
  closeDelivery (serveReads (openDelivery f s).inputs (openDelivery f s))

/-- RX.STEP.FRAMEOK: deliver the Telegram, then consume the frame, to AwaitSync1 (R162). -/
def execRxStepFrameok (s : State) : Host.Outcome State Fault Refusal :=
  whenSelected .frameok s fun bytes =>
    match parseCandidate bytes with
    | none => hold s
    | some f => .next ((deliver f s).consume (frameSize f.length) .awaitSync1)

/-- RX.STEP.FRAMEBAD: raise CkFault, then skip the frame, to AwaitSync1 (R163). -/
def execRxStepFramebad (s : State) : Host.Outcome State Fault Refusal :=
  whenSelected .framebad s fun bytes =>
    match parseCandidate bytes with
    | none => hold s
    | some f =>
      .next ((s.raise (.ckFault f.type f.length f.recv (f.computed s.cfg.ckInit))).consume (frameSize f.length) .awaitSync1)

/-- RX.WRITE (R151): enabled for `1 <= n <= rx_space` and `n <= RX_CHUNK`; it stores the bytes at `head` and advances `head`. A
larger write is held (R152); no bytes at all are not an operation (R152). -/
def execRxWrite (v : List Byte) (s : State) : Host.Outcome State Fault Refusal :=
  if v.isEmpty then .refused .emptyWrite
  else if v.length ≤ s.rxSpace ∧ v.length ≤ s.cfg.rxChunk then
    match s.ringWrite s.head v with
    | .error f => .fault f
    | .ok s' => .next { s' with head := s.wrap (s.head + v.length), accepted := s.accepted ++ v }
  else hold s

/-- The meaning of an RX.STEP outcome. -/
def runOutcome : RxOutcome → State → Host.Outcome State Fault Refusal
  | .s1hit, s => execRxStepS1hit s
  | .s1miss, s => execRxStepS1miss s
  | .s2hit, s => execRxStepS2hit s
  | .s2miss, s => execRxStepS2miss s
  | .stopempty, s => execRxStepStopempty s
  | .hdrwait, s => execRxStepHdrwait s
  | .frameok, s => execRxStepFrameok s
  | .framebad, s => execRxStepFramebad s

/-- At most `n` RX.STEPs, ending after the first *stop* (R165). -/
def drainLoop : Nat → State → Host.Outcome State Fault Refusal
  | 0, s => .next s
  | n + 1, s =>
    match rxOutcome s with
    | .error f => .fault f
    | .ok o =>
      match runOutcome o s with
      | .next s' => if o.isStop then .next s' else drainLoop n s'
      | .fault f => .fault f
      | .refused r => .refused r

/-- RX.DRAIN: RX.STEP until a stop, at most `fill + 1` steps (R165). -/
def execRxDrain (s : State) : Host.Outcome State Fault Refusal :=
  drainLoop (s.fill + 1) s

/-- PL.READ (R167). -/
def execPlRead (k : Nat) (s : State) : Host.Outcome State Fault Refusal :=
  readPayload k s

end Sys2Proof.Machine
end

