-- ==== Sys2Proof/Machine/Tx.lean ====
section
/-! DEFINITION. TX (41_tx_encoder.md): TX.ENCODE, its failure case, and TX.WRITE. -/

namespace Sys2Proof.Machine

/-- The failure of an encode (R132): EncodeFault is raised, nothing is built or handed over. -/
def encodeFails (type : Byte) (n : Nat) (s : State) : State := s.raise (.encodeFault type n)

/-- TX.ENCODE (R131): the length check comes first (R132, R231); the frame is built, reported and handed to LINK. -/
def execTxEncode (type : Byte) (payload : List Byte) (s : State) : Host.Outcome State Fault Refusal :=
  if payload.length ≤ s.cfg.maxPayload then
    let frame := wireFrame s.cfg.ckInit type payload
    .next { s.emit (.txFrame frame) with handed := s.handed ++ [frame] }
  else .next (encodeFails type payload.length s)

/-- TX.ENCODE.TOOLARGE (R132); a length that fits is outside its domain. -/
def execTxEncodeToolarge (type : Byte) (n : Nat) (s : State) : Host.Outcome State Fault Refusal :=
  if s.cfg.maxPayload < n then .next (encodeFails type n s)
  else .refused (.payloadFits n)

/-- TX.WRITE (R135): LINK answers the oldest frame handed over. On success the whole frame has gone out; on failure IoWriteFault
is raised and nothing is said of the line. A frame behind another waits for it (R136); a frame that was never handed over is no
operand of TX.WRITE. -/
def execTxWrite (frame : List Byte) (answer : LinkAnswer) (s : State) : Host.Outcome State Fault Refusal :=
  match s.handed with
  | [] => .refused .frameNotHanded
  | oldest :: rest =>
    if frame = oldest then
      match answer with
      | .success => .next { s with handed := rest, sent := s.sent ++ [frame] }
      | .failure => .next (State.raise { s with handed := rest } .ioWriteFault)
    else if frame ∈ rest then hold s
    else .refused .frameNotHanded

end Sys2Proof.Machine
end

