-- ==== Sys2Proof/Machine/Dispatch.lean ====
section
/-! DEFINITION. The meaning of every operation, one arm each. -/

namespace Sys2Proof.Machine

def exec (i : Instr) (s : State) : Host.Outcome State Fault Refusal :=
  match i with
  | .rxStepS1hit => Sys2Proof.Machine.execRxStepS1hit s
  | .rxStepS1miss => Sys2Proof.Machine.execRxStepS1miss s
  | .rxStepS2hit => Sys2Proof.Machine.execRxStepS2hit s
  | .rxStepS2miss => Sys2Proof.Machine.execRxStepS2miss s
  | .rxStepStopempty => Sys2Proof.Machine.execRxStepStopempty s
  | .rxStepHdrwait => Sys2Proof.Machine.execRxStepHdrwait s
  | .rxStepFrameok => Sys2Proof.Machine.execRxStepFrameok s
  | .rxStepFramebad => Sys2Proof.Machine.execRxStepFramebad s
  | .txEncode type payload => Sys2Proof.Machine.execTxEncode type payload s
  | .txEncodeToolarge type n => Sys2Proof.Machine.execTxEncodeToolarge type n s
  | .txWrite frame answer => Sys2Proof.Machine.execTxWrite frame answer s
  | .ckF16 d => Sys2Proof.Machine.execCkF16 d s
  | .rxWrite v => Sys2Proof.Machine.execRxWrite v s
  | .rxDrain => Sys2Proof.Machine.execRxDrain s
  | .plRead k => Sys2Proof.Machine.execPlRead k s
  | .fxBe16 b0 b1 => Sys2Proof.Machine.execFxBe16 b0 b1 s
  | .fxBe32 b0 b1 b2 b3 => Sys2Proof.Machine.execFxBe32 b0 b1 b2 b3 s
  | .fxMilli w f => Sys2Proof.Machine.execFxMilli w f s
  | .fxGauge v => Sys2Proof.Machine.execFxGauge v s
  | .fxCounter ip fp => Sys2Proof.Machine.execFxCounter ip fp s
  | .fxDigits3 f => Sys2Proof.Machine.execFxDigits3 f s
  | .fxRound11 x => Sys2Proof.Machine.execFxRound11 x s
  | .reset => Sys2Proof.Machine.execReset s

end Sys2Proof.Machine
end

