-- ==== Sys2Proof/Machine/Step.lean ====
section
/-! DEFINITION. One step of the machine: fetch what is asked next, decode it, run it; and where a table row's bits are put so
that the next step runs them. -/

namespace Sys2Proof.Machine

/-- One atomic operation (R59). -/
def step (s : State) : Host.Outcome State Fault Refusal :=
  match fetch s with
  | .error f => .fault f
  | .ok (e, s') =>
    match decode s.cfg e with
    | .error d => .refused (.undecodable d)
    | .ok i => exec i s'

/-- `s` with the bits of a table row put where the next step takes them (log 13): a stream row's bytes buffered at `tail`, in the
sync state that reads them so, on FRM's turn; the frame of TX.ENCODE's row as the request on port `enc` it pictures. -/
def State.withFetchWord (s : State) (nbits w : Nat) : State :=
  match tableEncoding nbits w with
  | .stream sync bytes =>
    { s.place s.tail bytes with
      head := s.wrap (s.tail + bytes.length), sync := sync
      inputs := if s.inputs.isEmpty then [] else .frm :: s.inputs }
  | .frame (_ :: _ :: type :: length :: rest) =>
    { s with inputs := .port (.enc type (rest.take length.toNat)) :: s.inputs }
  | .frame _ => s
  | .port r => { s with inputs := .port r :: s.inputs }

end Sys2Proof.Machine
end

