-- ==== Sys2Proof/Machine/Flags.lean ====
section
/-! DEFINITION. The status outputs (10_state.md R29, R30). The block stores no flag: each is a function of the state. -/

namespace Sys2Proof.Machine

/-- `rx_fill` (R29). -/
def State.rxFill (s : State) : Nat := s.fill

/-- `rx_empty = (head == tail)` (R29). -/
def State.rxEmpty (s : State) : Bool := decide (s.head = s.tail)

/-- `rx_ready = (rx_space > 0)` (R29). -/
def State.rxReady (s : State) : Bool := decide (0 < s.rxSpace)

/-- The numbering of `state` in a status view; 3 is never taken (R30). -/
def syncCode : SyncState → BitVec 2
  | .awaitSync1 => 0
  | .awaitSync2 => 1
  | .awaitHeader => 2

/-- The spec's ordinal of a report (R220). -/
def Event.ordinal : Event → Nat
  | .telegram _ _ _ => 0
  | .ckFault _ _ _ _ => 1
  | .lenFault => 2
  | .typeFault => 3
  | .encodeFault _ _ => 4
  | .ioReadFault => 5
  | .ioWriteFault => 6
  | .persistFault => 7
  | .txFrame _ => 8

/-- Which reports are faults (R220). -/
def Event.isFault : Event → Bool
  | .telegram _ _ _ => false
  | .ckFault _ _ _ _ => true
  | .lenFault => true
  | .typeFault => true
  | .encodeFault _ _ => true
  | .ioReadFault => true
  | .ioWriteFault => true
  | .persistFault => true
  | .txFrame _ => false

/-- The reports of RX (R220): what `parse` of R170 speaks of. -/
def Event.isRx : Event → Bool
  | .telegram _ _ _ => true
  | .ckFault _ _ _ _ => true
  | .lenFault => false
  | .typeFault => false
  | .encodeFault _ _ => false
  | .ioReadFault => false
  | .ioWriteFault => false
  | .persistFault => false
  | .txFrame _ => false

end Sys2Proof.Machine
end

