-- ==== Sys2Proof/Machine/Pseudo.lean ====
section
/-! DEFINITION. The pseudo-operations that are no rows of the table (30_encoding.md R99), as their expansions. -/

namespace Sys2Proof.Machine

/-- How many bytes PROD may present now: `min(remaining, rx_space)`, and at most `RX_CHUNK` (R99, R151, R280). -/
def State.feedSize (s : State) (remaining : Nat) : Nat :=
  min (min remaining s.rxSpace) s.cfg.rxChunk

/-- PROD's part of a round of RX.FEED: an RX.WRITE of the bytes that fit (R99). DESIGN CHOICE (log 12): with no room R99's RX.WRITE
would be one of no bytes, which is not an operation (R152); the model makes none, and nothing changes. -/
def feedWrite (v : List Byte) (s : State) : Host.Outcome State Fault Refusal :=
  if v.isEmpty then .next s else execRxWrite v s

/-- At most `n` rounds of RX.FEED: while bytes remain, write the first `min(remaining, rx_space)` of them, then drain (R99). A
round with no room only drains: DESIGN CHOICE (log 12). -/
def feedRounds : Nat → List Byte → State → Host.Outcome State Fault Refusal
  | 0, _, s => .next s
  | n + 1, v, s =>
    if v.isEmpty then .next s
    else
      match feedWrite (v.take (s.feedSize v.length)) s with
      | .fault f => .fault f
      | .refused r => .refused r
      | .next s1 =>
        match execRxDrain s1 with
        | .fault f => .fault f
        | .refused r => .refused r
        | .next s2 => feedRounds n (v.drop (s.feedSize v.length)) s2

/-- RX.FEED (R99; a round with no room: log 12). One round more than there are bytes is enough: only the first can find no room
before its drain, and a later one that finds none is in the hang of R268, which further rounds would not change; `accepted` then
lacks the bytes not written. -/
def rxFeed (v : List Byte) (s : State) : Host.Outcome State Fault Refusal :=
  feedRounds (v.length + 1) v s

/-- TX.SEND: TX.ENCODE then, if it succeeded, TX.WRITE of the frame (R99). -/
def txSend (type : Byte) (payload : List Byte) (answer : LinkAnswer) (s : State) : Host.Outcome State Fault Refusal :=
  match execTxEncode type payload s with
  | .fault f => .fault f
  | .refused r => .refused r
  | .next s1 =>
    if payload.length ≤ s.cfg.maxPayload then execTxWrite (wireFrame s.cfg.ckInit type payload) answer s1
    else .next s1

end Sys2Proof.Machine
end

