-- ==== Sys2Proof/Safety.lean ====
section
/-! DEFINITION. The terms the claims use: the invariant of the receive record (10_state.md R26), quiescence and the end of a run
(70_reset_and_hazards.md R279), the stream semantics (42_rx_framer.md R170), the closed form of the checksum (40_checksum.md
R115), and who raises which report (60_exceptions.md R220). -/

namespace Sys2Proof.Machine

/-- The invariant that every operation preserves: the indices are in range (R26 c), `BUF` is in canonical form and has no cell
outside the ring (R50), every cell of the filled region has been written (R65), and no delivery is in progress between operations
(R59, R66). The configuration is one the spec allows (R7, R11, R12). -/
structure Inv (s : State) : Prop where
  cfgValid : s.cfg.Valid
  bufWf : s.buf.wf = true
  bufInRing : ∀ p ∈ s.buf, p.1 < s.cfg.capacity
  headInRing : s.head < s.cfg.capacity
  tailInRing : s.tail < s.cfg.capacity
  filledWritten : ∀ k < s.fill, (s.buf.read (s.wrap (s.tail + k))).isSome = true
  noDelivery : s.delivery = none

/-- No *continue* outcome of RX.STEP is enabled (R279). -/
def Quiescent (s : State) : Prop :=
  (s.sync ≠ .awaitHeader ∧ s.fill = 0) ∨
  (s.sync = .awaitHeader ∧
    (s.fill < 4 ∨ ∃ length, s.readCell (s.wrap (s.tail + 1)) = .ok length ∧ s.fill < frameSize length))

/-- A run over the finite input `input` has ended (R279): (a) every byte of it has been accepted by some RX.WRITE, (b) the block is
quiescent, (c) no delivery is in progress, (d) every frame built has been answered. Requests that stand on other ports do not matter,
and bytes that PROD is held with do: they are bytes of the input that are not accepted. -/
def RunEnded (input : List Byte) (s : State) : Prop :=
  s.accepted = input ∧ Quiescent s ∧ s.delivery = none ∧ s.handed = []

/-- What `parse` gives: the events, the final sync state and the residue (R170). -/
structure Parsed where
  events : List Event
  sync : SyncState
  residue : List Byte
deriving DecidableEq, Repr

/-- `parse(s, B)` of R170, written from the rule. The first argument bounds the recursion; one more than the number of bytes is
enough. -/
def parseFrom (init : CkInit) : Nat → SyncState → List Byte → Parsed
  | 0, st, bytes => ⟨[], st, bytes⟩
  | _ + 1, .awaitSync1, [] => ⟨[], .awaitSync1, []⟩
  | n + 1, .awaitSync1, b :: bytes => parseFrom init n (if b = 0xAA then .awaitSync2 else .awaitSync1) bytes
  | _ + 1, .awaitSync2, [] => ⟨[], .awaitSync2, []⟩
  | n + 1, .awaitSync2, b :: bytes => parseFrom init n (if b = 0xAA then .awaitHeader else .awaitSync1) bytes
  | n + 1, .awaitHeader, type :: length :: rest =>
    if rest.length < length.toNat + 2 then ⟨[], .awaitHeader, type :: length :: rest⟩
    else
      let payload := rest.take length.toNat
      let recv := beHalf (rest.getD length.toNat 0) (rest.getD (length.toNat + 1) 0)
      let computed := f16 init (type :: length :: payload)
      let event := if computed = recv then Event.telegram type length payload else Event.ckFault type length recv computed
      let later := parseFrom init n .awaitSync1 (rest.drop (length.toNat + 2))
      ⟨event :: later.events, later.sync, later.residue⟩
  | _ + 1, .awaitHeader, bytes => ⟨[], .awaitHeader, bytes⟩

/-- `parse(s, B)` (R170). -/
def parse (init : CkInit) (st : SyncState) (bytes : List Byte) : Parsed :=
  parseFrom init (bytes.length + 1) st bytes

/-- The stream semantics as a relation of one state (R170): what RX has reported since reset, then what `parse` gives for the
buffered bytes under the present sync state, is what `parse` gives for all bytes accepted since reset. -/
def FollowsTheStream (s : State) : Prop :=
  ∃ bs, s.buffered = .ok bs ∧
    parse s.cfg.ckInit .awaitSync1 s.accepted =
      ⟨s.out.filter Event.isRx ++ (parse s.cfg.ckInit s.sync bs).events, (parse s.cfg.ckInit s.sync bs).sync,
        (parse s.cfg.ckInit s.sync bs).residue⟩

/-- A move of PROD or FRM in a schedule of RX (R170). -/
inductive RxMove where
  | write (v : List Byte)
  | step
deriving DecidableEq, Repr

/-- Runs a schedule of RX.WRITEs and RX.STEPs, giving the bytes that were accepted and the state reached; a write that does not
fit is held and offers nothing (R152). None if an operation stops. -/
def runSchedule : List RxMove → State → Option (List Byte × State)
  | [], s => some ([], s)
  | .write v :: ms, s =>
    if 1 ≤ v.length ∧ v.length ≤ s.rxSpace ∧ v.length ≤ s.cfg.rxChunk then
      match exec (.rxWrite v) s with
      | .next t => (runSchedule ms t).map fun p => (v ++ p.1, p.2)
      | _ => none
    else runSchedule ms s
  | .step :: ms, s =>
    match rxOutcome s with
    | .error _ => none
    | .ok o =>
      match exec o.toInstr s with
      | .next t => runSchedule ms t
      | _ => none

/-- `rep(T)`: 0 for 0, else the representative of `T` modulo 255 in `1 .. 255` (R115). -/
def rep (t : Nat) : Nat := if t = 0 then 0 else (t - 1) % 255 + 1

/-- `S`, the plain sum of the bytes (R115). -/
def byteSum : List Byte → Nat
  | [] => 0
  | b :: bs => b.toNat + byteSum bs

/-- `W`, the sum weighted by position: the first of `n` bytes has weight `n`, the last has weight 1 (R115). -/
def weightedSum : List Byte → Nat
  | [] => 0
  | b :: bs => (bs.length + 1) * b.toNat + weightedSum bs

/-- The closed form of CK.F16: `(rep(T2) << 8) | rep(T1)` as a number (R115). -/
def closedForm (init : CkInit) (d : List Byte) : Nat :=
  256 * rep ((d.length + 1) * init.value.toNat + weightedSum d) + rep (init.value.toNat + byteSum d)

/-- Whether the operation is FRM's: an RX.STEP or RX.DRAIN (R17, R27). -/
def byFramer : Instr → Bool
  | .rxStepS1hit => true
  | .rxStepS1miss => true
  | .rxStepS2hit => true
  | .rxStepS2miss => true
  | .rxStepStopempty => true
  | .rxStepHdrwait => true
  | .rxStepFrameok => true
  | .rxStepFramebad => true
  | .txEncode _ _ => false
  | .txEncodeToolarge _ _ => false
  | .txWrite _ _ => false
  | .ckF16 _ => false
  | .rxWrite _ => false
  | .rxDrain => true
  | .plRead _ => false
  | .fxBe16 _ _ => false
  | .fxBe32 _ _ _ _ => false
  | .fxMilli _ _ => false
  | .fxGauge _ => false
  | .fxCounter _ _ => false
  | .fxDigits3 _ => false
  | .fxRound11 _ => false
  | .reset => false

/-- Whether the operation is PROD's RX.WRITE (R17, R27). -/
def byProducer : Instr → Bool
  | .rxWrite _ => true
  | _ => false

/-- The "raised by" column of R220, with RX.DRAIN standing for the RX.STEPs it runs (R165). -/
def mayReport : Instr → Event → Bool
  | .rxStepFrameok, .telegram _ _ _ => true
  | .rxStepFramebad, .ckFault _ _ _ _ => true
  | .rxDrain, .telegram _ _ _ => true
  | .rxDrain, .ckFault _ _ _ _ => true
  | .txEncode _ _, .txFrame _ => true
  | .txEncode _ _, .encodeFault _ _ => true
  | .txEncodeToolarge _ _, .encodeFault _ _ => true
  | .txWrite _ _, .ioWriteFault => true
  | _, _ => false

end Sys2Proof.Machine
end

