-- ==== Sys2Proof/Certificates/Slice0/Obligations.lean ====
section
/-! DEFINITION. The statements for the provers. Each docstring names the rule of spec/ it formalises, or the log entry where a
clause is the model's choice. -/

open Sys2Proof Sys2Proof.Machine

/-! ### Reset, the step, and decoding -/

/-- R36 and the reset values of R29: what the machine holds right after reset. -/
def Obligations.ResetStateHoldsTheResetValues : Prop :=
  State.reset.head = 0 ∧ State.reset.tail = 0 ∧ State.reset.sync = .awaitSync1 ∧ State.reset.out = [] ∧
  (∀ a < State.reset.cfg.capacity, State.reset.readCell a = .error (.unwrittenCell a)) ∧
  State.reset.rxFill = 0 ∧ State.reset.rxEmpty = true ∧
  State.reset.rxSpace = State.reset.cfg.capacity - 1 ∧ State.reset.rxReady = true

/-- R260: RESET answers in every state, and what it leaves in the receive record and in `OUT`. -/
def Obligations.ResetPutsTheRecordBack : Prop :=
  ∀ s : State, ∃ t, exec .reset s = .next t ∧
    t.head = 0 ∧ t.tail = 0 ∧ t.sync = .awaitSync1 ∧ t.out = [] ∧
    ∀ a < t.cfg.capacity, t.readCell a = .error (.unwrittenCell a)

/-- R30, R261 and log 5, 22 (the model's choice for its own fields): what RESET leaves alone, and that the record of accepted bytes
starts anew. -/
def Obligations.ResetLeavesTheRestAlone : Prop :=
  ∀ s t : State, exec .reset s = .next t →
    t.cfg = s.cfg ∧ t.handed = s.handed ∧ t.sent = s.sent ∧ t.inputs = s.inputs ∧ t.results = s.results ∧
    t.delivery = none ∧ t.accepted = []

/-- The step takes the next move off the ports, decodes it and runs the operation it stands for; with no move listed it is the
framer's turn, which decodes the fetched stream bytes under the present sync state (R94, R95, R166; log 2). -/
def Obligations.StepRunsTheDecodedOperation : Prop :=
  ∀ (s : State) (i : Instr),
    (∀ r later, s.inputs = .port r :: later → decode s.cfg (.port r) = .ok i →
      step s = exec i { s with inputs := later }) ∧
    (∀ later bytes, s.inputs = .frm :: later → rxFetch s = .ok bytes → decode s.cfg (.stream s.sync bytes) = .ok i →
      step s = exec i { s with inputs := later }) ∧
    (∀ bytes, s.inputs = [] → rxFetch s = .ok bytes → decode s.cfg (.stream s.sync bytes) = .ok i →
      step s = exec i s)

/-- Bytes written out from R80, R95 and the vectors T3, Q2 to Q15 decode to the operations they stand for. -/
def Obligations.WrittenOutBytesDecode : Prop :=
  decode Config.flxd (.stream .awaitSync1 [0b10101010]) = .ok .rxStepS1hit ∧
  decode Config.flxd (.stream .awaitSync1 [0b00000000]) = .ok .rxStepS1miss ∧
  decode Config.flxd (.stream .awaitSync2 [0b10101010]) = .ok .rxStepS2hit ∧
  decode Config.flxd (.stream .awaitSync2 [0b01010101]) = .ok .rxStepS2miss ∧
  decode Config.flxd (.stream .awaitHeader [0x01, 0x00, 0x02]) = .ok .rxStepHdrwait ∧
  decode Config.flxd (.stream .awaitHeader [0x03, 0x02, 0x12, 0x34, 0x6A, 0x4B]) = .ok .rxStepFrameok ∧
  decode Config.flxd (.stream .awaitHeader [0x03, 0x02, 0x13, 0x34, 0x6A, 0x4B]) = .ok .rxStepFramebad ∧
  decode Config.flxd (.frame [0xAA, 0xAA, 0x03, 0x02, 0x12, 0x34, 0x6A, 0x4B]) = .ok (.txEncode 0x03 [0x12, 0x34])

/-- Decoding the encoding of a well-formed operation gives it back, for every operation of the table and every operand. -/
def Obligations.DecodeEncodeAgree : Prop :=
  ∀ c : Config, c.Valid → ∀ i : Instr, WellFormed c i = true → decode c (encode c i) = .ok i

/-- The bytes of a built frame, whatever follows them, are read by the stream decoder as a frame start and then as a valid
candidate with the fields that were put in (R80 to R84, R95). -/
def Obligations.BuiltFramesAreReadBack : Prop :=
  ∀ c : Config, c.Valid → ∀ (type : Byte) (payload extra : List Byte), payload.length ≤ c.maxPayload →
    decodeStream c .awaitSync1 (wireFrame c.ckInit type payload ++ extra) = .s1hit ∧
    decodeStream c .awaitSync2 ((wireFrame c.ckInit type payload).drop 1 ++ extra) = .s2hit ∧
    decodeStream c .awaitHeader ((wireFrame c.ckInit type payload).drop 2 ++ extra) = .frameok ∧
    parseCandidate ((wireFrame c.ckInit type payload).drop 2 ++ extra) =
      some ⟨type, BitVec.ofNat 8 payload.length, payload,
        f16 c.ckInit (type :: BitVec.ofNat 8 payload.length :: payload)⟩

/-! ### RX.STEP -/

/-- R154. -/
def Obligations.S1HitConsumesTheMarker : Prop :=
  ∀ s : State, s.sync = .awaitSync1 → 1 ≤ s.fill → s.readCell s.tail = .ok 0xAA →
    exec .rxStepS1hit s = .next { s with tail := (s.tail + 1) % s.cfg.capacity, sync := .awaitSync2 }

/-- R155. -/
def Obligations.S1MissSkipsTheByte : Prop :=
  ∀ (s : State) (b : Byte), s.sync = .awaitSync1 → 1 ≤ s.fill → s.readCell s.tail = .ok b → b ≠ 0xAA →
    exec .rxStepS1miss s = .next { s with tail := (s.tail + 1) % s.cfg.capacity, sync := .awaitSync1 }

/-- R156. -/
def Obligations.S2HitReachesTheHeader : Prop :=
  ∀ s : State, s.sync = .awaitSync2 → 1 ≤ s.fill → s.readCell s.tail = .ok 0xAA →
    exec .rxStepS2hit s = .next { s with tail := (s.tail + 1) % s.cfg.capacity, sync := .awaitHeader }

/-- R157. -/
def Obligations.S2MissHuntsAgain : Prop :=
  ∀ (s : State) (b : Byte), s.sync = .awaitSync2 → 1 ≤ s.fill → s.readCell s.tail = .ok b → b ≠ 0xAA →
    exec .rxStepS2miss s = .next { s with tail := (s.tail + 1) % s.cfg.capacity, sync := .awaitSync1 }

/-- R158: with no byte to consume nothing changes. -/
def Obligations.StopEmptyChangesNothing : Prop :=
  ∀ s : State, s.sync = .awaitSync1 ∨ s.sync = .awaitSync2 → s.fill = 0 → exec .rxStepStopempty s = .next s

/-- R159: an incomplete header or frame is waited for and nothing changes; below four bytes the length is not even read. -/
def Obligations.HdrWaitChangesNothing : Prop :=
  ∀ s : State, s.sync = .awaitHeader →
    (s.fill < 4 ∨
      ∃ length, s.readCell ((s.tail + 1) % s.cfg.capacity) = .ok length ∧ s.fill < length.toNat + 4) →
    exec .rxStepHdrwait s = .next s

/-- R162: a valid frame is reported as one Telegram and consumed whole, to AwaitSync1. `inputs` and `results` may change: the
HOST's PL.READs are served inside (the next statement). -/
def Obligations.FrameOkDeliversTheTelegram : Prop :=
  ∀ (s : State) (type length hi lo : Byte) (payload : List Byte),
    s.sync = .awaitHeader → length.toNat + 4 ≤ s.fill → payload.length = length.toNat →
    s.ringRead s.tail (length.toNat + 4) = .ok (type :: length :: (payload ++ [hi, lo])) →
    f16 s.cfg.ckInit (type :: length :: payload) = beHalf hi lo →
    ∃ t, exec .rxStepFrameok s = .next t ∧ t = { s with
      tail := (s.tail + (length.toNat + 4)) % s.cfg.capacity, sync := .awaitSync1
      out := s.out ++ [.telegram type length payload], delivery := none
      inputs := t.inputs, results := t.results }

/-- R66 and R167: inside the delivery, the PL.READ requests that stand next on the ports and are inside the payload are answered
with the bytes of the event's payload. The model's choice (log 6): those are the reads of the delivery, in that order, and no
other request is taken. -/
def Obligations.PayloadReadsAreServedInTheDelivery : Prop :=
  ∀ (s : State) (type length hi lo : Byte) (payload : List Byte),
    s.sync = .awaitHeader → length.toNat + 4 ≤ s.fill → payload.length = length.toNat →
    s.ringRead s.tail (length.toNat + 4) = .ok (type :: length :: (payload ++ [hi, lo])) →
    f16 s.cfg.ckInit (type :: length :: payload) = beHalf hi lo →
    ∃ (t : State) (ks : List Nat), exec .rxStepFrameok s = .next t ∧
      t.results = s.results ++ (ks.map fun k => .payloadByte (payload.getD k 0)) ∧
      s.inputs = (ks.map fun k => .port (.pl k)) ++ t.inputs ∧
      (∀ k ∈ ks, k < length.toNat) ∧
      (∀ k later, t.inputs = .port (.pl k) :: later → length.toNat ≤ k)

/-- R163: a candidate whose checksum differs is reported and skipped whole. -/
def Obligations.FrameBadReportsAndSkips : Prop :=
  ∀ (s : State) (type length hi lo : Byte) (payload : List Byte),
    s.sync = .awaitHeader → length.toNat + 4 ≤ s.fill → payload.length = length.toNat →
    s.ringRead s.tail (length.toNat + 4) = .ok (type :: length :: (payload ++ [hi, lo])) →
    f16 s.cfg.ckInit (type :: length :: payload) ≠ beHalf hi lo →
    exec .rxStepFramebad s = .next { s with
      tail := (s.tail + (length.toNat + 4)) % s.cfg.capacity, sync := .awaitSync1
      out := s.out ++
        [.ckFault type length (beHalf hi lo) (f16 s.cfg.ckInit (type :: length :: payload))] }

/-- The dispatch table of R153: which condition selects which outcome. -/
def Obligations.DispatchTableOfRxStep : Prop :=
  ∀ s : State, Inv s →
    (rxOutcome s = .ok .s1hit ↔ s.sync = .awaitSync1 ∧ 1 ≤ s.fill ∧ s.readCell s.tail = .ok 0xAA) ∧
    (rxOutcome s = .ok .s1miss ↔
      s.sync = .awaitSync1 ∧ 1 ≤ s.fill ∧ ∃ b, s.readCell s.tail = .ok b ∧ b ≠ 0xAA) ∧
    (rxOutcome s = .ok .s2hit ↔ s.sync = .awaitSync2 ∧ 1 ≤ s.fill ∧ s.readCell s.tail = .ok 0xAA) ∧
    (rxOutcome s = .ok .s2miss ↔
      s.sync = .awaitSync2 ∧ 1 ≤ s.fill ∧ ∃ b, s.readCell s.tail = .ok b ∧ b ≠ 0xAA) ∧
    (rxOutcome s = .ok .stopempty ↔ s.sync ≠ .awaitHeader ∧ s.fill = 0) ∧
    (rxOutcome s = .ok .hdrwait ↔ s.sync = .awaitHeader ∧
      (s.fill < 4 ∨
        ∃ length, s.readCell ((s.tail + 1) % s.cfg.capacity) = .ok length ∧ s.fill < length.toNat + 4)) ∧
    (rxOutcome s = .ok .frameok ↔ s.sync = .awaitHeader ∧
      ∃ type length hi lo payload, length.toNat + 4 ≤ s.fill ∧ payload.length = length.toNat ∧
        s.ringRead s.tail (length.toNat + 4) = .ok (type :: length :: (payload ++ [hi, lo])) ∧
        f16 s.cfg.ckInit (type :: length :: payload) = beHalf hi lo) ∧
    (rxOutcome s = .ok .framebad ↔ s.sync = .awaitHeader ∧
      ∃ type length hi lo payload, length.toNat + 4 ≤ s.fill ∧ payload.length = length.toNat ∧
        s.ringRead s.tail (length.toNat + 4) = .ok (type :: length :: (payload ++ [hi, lo])) ∧
        f16 s.cfg.ckInit (type :: length :: payload) ≠ beHalf hi lo)

/-- R153, R164: one outcome is selected and answers; the other seven hold (log 8); a *stop* changes nothing, and a *continue*
advances `tail` over at least one and at most `fill` buffered bytes. -/
def Obligations.RxStepTakesExactlyOneOutcome : Prop :=
  ∀ s : State, Inv s →
    ∃ o, rxOutcome s = .ok o ∧ (∀ o', o' ≠ o → exec o'.toInstr s = .next s) ∧
      ∃ t, exec o.toInstr s = .next t ∧ (o.isStop = true → t = s) ∧
        (o.isStop = false →
          ∃ n, 1 ≤ n ∧ n ≤ s.fill ∧ t.tail = (s.tail + n) % s.cfg.capacity ∧ t.fill = s.fill - n)

/-- R169: what the HOST has asked for, been answered or handed to LINK has no effect on what FRAMEOK does to the receive record
and to `OUT`. -/
def Obligations.HostCannotInfluenceTheFramer : Prop :=
  ∀ (s t : State) (inputs : List Move) (results : List Result) (handed sent : List (List Byte)),
    exec .rxStepFrameok s = .next t →
    ∃ u, exec .rxStepFrameok { s with inputs := inputs, results := results, handed := handed, sent := sent } = .next u ∧
      u.tail = t.tail ∧ u.sync = t.sync ∧ u.head = t.head ∧ u.out = t.out ∧ (∀ a, u.readCell a = t.readCell a)

/-! ### RX.WRITE, RX.DRAIN, PL.READ -/

/-- R151 and R53: an accepted write stores its bytes at `head`, advances `head`, and changes no other byte and nothing else, but
for the model's record of the accepted bytes (log 22). -/
def Obligations.RxWriteStoresTheBytes : Prop :=
  ∀ (s : State) (v : List Byte), 1 ≤ v.length → v.length ≤ s.rxSpace → v.length ≤ s.cfg.rxChunk →
    ∃ t, exec (.rxWrite v) s = .next t ∧
      t = { s with buf := t.buf, head := (s.head + v.length) % s.cfg.capacity, accepted := s.accepted ++ v } ∧
      (∀ k (h : k < v.length), t.readCell (s.head + k) = .ok v[k]) ∧
      (∀ a, a < s.head ∨ s.head + v.length ≤ a → t.readCell a = s.readCell a)

/-- R152: a write larger than `rx_space` is held, and so is one larger than `RX_CHUNK` (log 9); no bytes at all are not an
operation and are refused. -/
def Obligations.RxWriteHoldsWhatDoesNotFit : Prop :=
  ∀ (s : State) (v : List Byte),
    (v ≠ [] → s.rxSpace < v.length ∨ s.cfg.rxChunk < v.length → exec (.rxWrite v) s = .next s) ∧
    (v = [] → exec (.rxWrite v) s = .refused .emptyWrite)

/-- R55 (a), R60 (a), R62: an accepted write appends its bytes to the buffered bytes and overwrites none of them. -/
def Obligations.RxWriteAppendsToTheStream : Prop :=
  ∀ (s t : State) (v bs : List Byte), Inv s → s.buffered = .ok bs → 1 ≤ v.length → v.length ≤ s.rxSpace →
    v.length ≤ s.cfg.rxChunk → exec (.rxWrite v) s = .next t →
    t.buffered = .ok (bs ++ v) ∧ t.fill = s.fill + v.length

/-- R25, R26, R29: the two forms of the fill, and what the status outputs say. -/
def Obligations.StatusOutputsDescribeTheRing : Prop :=
  ∀ s : State, Inv s →
    s.fill = (if s.tail ≤ s.head then s.head - s.tail else s.cfg.capacity - s.tail + s.head) ∧
    s.fill ≤ s.cfg.capacity - 1 ∧
    (s.rxEmpty = true ↔ s.fill = 0) ∧
    (s.rxReady = false ↔ s.fill = s.cfg.capacity - 1) ∧
    (s.fill = s.cfg.capacity - 1 ↔ (s.head + 1) % s.cfg.capacity = s.tail) ∧
    (s.rxEmpty = true → s.rxReady = true)

/-- R165 with R170: RX.DRAIN answers; it reports what `parse` gives for the buffered bytes, leaves the sync state and the residue
of `parse`, ends quiescent (R279), and writes neither `head` nor a byte of `BUF`; of the requests it takes at most payload reads,
each answered with a byte, in its deliveries (log 6). -/
def Obligations.DrainRunsToTheEndOfTheStream : Prop :=
  ∀ (s : State) (bs : List Byte), Inv s → s.buffered = .ok bs →
    ∃ t, exec .rxDrain s = .next t ∧
      t.out = s.out ++ (parse s.cfg.ckInit s.sync bs).events ∧
      t.sync = (parse s.cfg.ckInit s.sync bs).sync ∧
      t.buffered = .ok (parse s.cfg.ckInit s.sync bs).residue ∧
      Quiescent t ∧ t.head = s.head ∧ (∀ a, t.readCell a = s.readCell a) ∧
      t.cfg = s.cfg ∧ t.handed = s.handed ∧ t.sent = s.sent ∧ t.delivery = none ∧ t.accepted = s.accepted ∧
      ∃ (ks : List Nat) (answers : List Byte), s.inputs = (ks.map fun k => .port (.pl k)) ++ t.inputs ∧
        t.results = s.results ++ answers.map .payloadByte ∧ answers.length = ks.length

/-- R170: whatever the schedule of writes and framer steps, once the framer has drained, `OUT`, `state` and the residue are those
`parse` gives for the bytes that were buffered followed by the bytes that were accepted. -/
def Obligations.StreamSemanticsOfEverySchedule : Prop :=
  ∀ (s t u : State) (ms : List RxMove) (bs accepted : List Byte), Inv s → s.buffered = .ok bs →
    runSchedule ms s = some (accepted, t) → exec .rxDrain t = .next u →
    u.out = s.out ++ (parse s.cfg.ckInit s.sync (bs ++ accepted)).events ∧
    u.sync = (parse s.cfg.ckInit s.sync (bs ++ accepted)).sync ∧
    u.buffered = .ok (parse s.cfg.ckInit s.sync (bs ++ accepted)).residue

/-- R172, chunking invariance: two schedules that deliver the same bytes end, once drained, with the same events in the same
order, the same `state` and the same residue. -/
def Obligations.ChunkingInvariance : Prop :=
  ∀ (s t t' u u' : State) (ms ms' : List RxMove) (accepted : List Byte), Inv s →
    runSchedule ms s = some (accepted, t) → runSchedule ms' s = some (accepted, t') →
    exec .rxDrain t = .next u → exec .rxDrain t' = .next u' →
    u.out = u'.out ∧ u.sync = u'.sync ∧ u.buffered = u'.buffered

/-- R167: in an open window PL.READ answers with payload byte `k` and changes nothing else; outside the window, and past the
payload, it is refused. -/
def Obligations.PlReadAnswersInTheWindowOnly : Prop :=
  ∀ (s : State) (k : Nat),
    (∀ length b, s.delivery = some length → k < length →
      s.readCell ((s.tail + 2 + k) % s.cfg.capacity) = .ok b →
      exec (.plRead k) s = .next { s with results := s.results ++ [.payloadByte b] }) ∧
    (s.delivery = none → exec (.plRead k) s = .refused .windowClosed) ∧
    (∀ length, s.delivery = some length → length ≤ k → exec (.plRead k) s = .refused (.payloadIndex k))

/-! ### TX -/

/-- R131 and R134: the frame TX.ENCODE builds, reports and hands over, `n + 6` bytes, and nothing else changes. -/
def Obligations.TxEncodeBuildsTheFrame : Prop :=
  ∀ (s : State) (type hi lo : Byte) (payload : List Byte), payload.length ≤ s.cfg.maxPayload →
    beHalf hi lo = f16 s.cfg.ckInit (type :: BitVec.ofNat 8 payload.length :: payload) →
    ∃ frame, frame = [0xAA, 0xAA, type, BitVec.ofNat 8 payload.length] ++ payload ++ [hi, lo] ∧
      frame.length = payload.length + 6 ∧
      exec (.txEncode type payload) s =
        .next { s with out := s.out ++ [.txFrame frame], handed := s.handed ++ [frame] }

/-- R132 and R224: a request on port `enc` with a payload that is too large is TX.ENCODE.TOOLARGE, which raises EncodeFault with
the type and the length and changes nothing else. -/
def Obligations.TxEncodeTooLargeRaisesEncodeFault : Prop :=
  ∀ (s : State) (type : Byte) (n : Nat), s.cfg.maxPayload < n →
    exec (.txEncodeToolarge type n) s = .next { s with out := s.out ++ [.encodeFault type n] } ∧
    ∀ payload : List Byte, payload.length = n →
      decode s.cfg (.port (.enc type payload)) = .ok (.txEncodeToolarge type n)

/-- The model's choice (log 11): TX.ENCODE itself makes the length check, and TX.ENCODE.TOOLARGE refuses a length that fits. -/
def Obligations.TheLengthCheckSplitsTheEncodeRequests : Prop :=
  ∀ (s : State) (type : Byte) (payload : List Byte) (n : Nat),
    (s.cfg.maxPayload < payload.length →
      exec (.txEncode type payload) s = .next { s with out := s.out ++ [.encodeFault type payload.length] }) ∧
    (n ≤ s.cfg.maxPayload → exec (.txEncodeToolarge type n) s = .refused (.payloadFits n))

/-- R135 and R226: LINK's answer for the oldest frame handed over. -/
def Obligations.TxWriteTakesTheAnswer : Prop :=
  ∀ (s : State) (frame : List Byte) (later : List (List Byte)), s.handed = frame :: later →
    exec (.txWrite frame .success) s = .next { s with handed := later, sent := s.sent ++ [frame] } ∧
    exec (.txWrite frame .failure) s = .next { s with handed := later, out := s.out ++ [.ioWriteFault] }

/-- R136 and log 10: a frame behind an unanswered one waits, and a frame that was not handed over is refused. -/
def Obligations.TxWriteKeepsTheOrder : Prop :=
  ∀ (s : State) (frame : List Byte) (answer : LinkAnswer),
    (∀ oldest later, s.handed = oldest :: later → frame ≠ oldest → frame ∈ later →
      exec (.txWrite frame answer) s = .next s) ∧
    (frame ∉ s.handed → exec (.txWrite frame answer) s = .refused .frameNotHanded)

/-- R136: frames join the queue at its end and leave it at its front, in the order of their TX.ENCODEs; nothing else moves
them. -/
def Obligations.FramesLeaveInOrder : Prop :=
  ∀ (i : Instr) (s t : State), exec i s = .next t →
    (t.handed = s.handed ∧ t.sent = s.sent) ∨
    (∃ type payload frame, i = .txEncode type payload ∧ t.handed = s.handed ++ [frame] ∧ t.sent = s.sent ∧
      t.out = s.out ++ [.txFrame frame]) ∨
    (∃ frame answer, i = .txWrite frame answer ∧ s.handed = frame :: t.handed ∧
      (t.sent = s.sent ++ [frame] ∨ (t.sent = s.sent ∧ t.out = s.out ++ [.ioWriteFault])))

/-- R137, the round trip: the frame TX builds, fed to an idle receiver with the same `CK_INIT`, is delivered as exactly one
Telegram with its type and payload, and is consumed whole. -/
def Obligations.EncodedFramesAreReceived : Prop :=
  ∀ (s : State) (type : Byte) (payload : List Byte), Inv s → s.cfg.DeadlockFree → s.sync = .awaitSync1 → s.fill = 0 →
    payload.length ≤ s.cfg.maxPayload →
    ∃ t, rxFeed (wireFrame s.cfg.ckInit type payload) s = .next t ∧
      t.out = s.out ++ [.telegram type (BitVec.ofNat 8 payload.length) payload] ∧
      t.sync = .awaitSync1 ∧ t.fill = 0

/-- RX.FEED of a ring with room (R99), and of a full one by the model's choice (log 12). Where no frame is too large for the ring,
RX.FEED writes all its bytes and reports what `parse` gives for the buffered bytes followed by the fed ones; feeding no bytes changes
nothing. R99 does not say what a round with no room does: its RX.WRITE would be one of no bytes, which R152 says is not an operation.
That such a round makes no RX.WRITE and drains is the model's choice (log 12), so what is said here of a ring that is full at the
start rests on log 12 and on no rule. `accepted` is the model's own record of the bytes written (log 22). -/
def Obligations.RxFeedWritesEverything : Prop :=
  ∀ (s : State) (v bs : List Byte), Inv s → s.cfg.DeadlockFree → s.buffered = .ok bs →
    (v = [] → rxFeed v s = .next s) ∧
    (v ≠ [] → ∃ t, rxFeed v s = .next t ∧ t.accepted = s.accepted ++ v ∧ Quiescent t ∧
      t.out = s.out ++ (parse s.cfg.ckInit s.sync (bs ++ v)).events ∧
      t.sync = (parse s.cfg.ckInit s.sync (bs ++ v)).sync ∧
      t.buffered = .ok (parse s.cfg.ckInit s.sync (bs ++ v)).residue)

/-! ### CK -/

/-- R110, R111, R115: CK.F16 answers with the checksum of its operand and changes nothing else. -/
def Obligations.CkF16AnswersTheChecksum : Prop :=
  ∀ (s : State) (d : List Byte), ∃ v : Half,
    exec (.ckF16 d) s = .next { s with results := s.results ++ [.f16 v] } ∧ v.toNat = closedForm s.cfg.ckInit d

/-- R115: the block-wise reference algorithm over 16-bit accumulators is the closed form, on every input. -/
def Obligations.ChecksumLoopIsTheClosedForm : Prop :=
  ∀ (init : CkInit) (d : List Byte), (f16 init d).toNat = closedForm init d

/-- R112: what one folding step does to a 16-bit accumulator. -/
def Obligations.FoldIsAnEndAroundCarry : Prop :=
  ∀ s : Half, (fold s).toNat = s.toNat % 256 + s.toNat / 256 ∧ (fold s).toNat % 255 = s.toNat % 255 ∧
    (fold s = 0 ↔ s = 0) ∧ (fold s).toNat ≤ 0x1FE ∧ (s.toNat ≤ 0x1FE → (fold s).toNat ≤ 0xFF)

/-- R116: from folded sums, a block of at most 20 bytes never overflows a 16-bit accumulator. -/
def Obligations.AccumulatorsNeverOverflow : Prop :=
  ∀ (s : Sums) (bs : List Byte), s.sum1.toNat ≤ 0x1FE → s.sum2.toNat ≤ 0x1FE → bs.length ≤ 20 →
    (s.addBytes bs).sum1.toNat = s.sum1.toNat + byteSum bs ∧
    (s.addBytes bs).sum2.toNat = s.sum2.toNat + bs.length * s.sum1.toNat + weightedSum bs ∧
    (s.addBytes bs).sum1.toNat ≤ 5610 ∧ (s.addBytes bs).sum2.toNat ≤ 0xFB04

/-- R118: which inputs `CK_INIT` matters to. -/
def Obligations.CkInitMattersForZerosOnly : Prop :=
  ∀ d : List Byte,
    ((∃ b ∈ d, b ≠ 0) → f16 .x00 d = f16 .xFF d) ∧
    ((∀ b ∈ d, b = 0) → f16 .x00 d = 0x0000 ∧ f16 .xFF d = 0xFFFF) ∧
    hiByte (f16 .xFF d) ≠ 0 ∧ loByte (f16 .xFF d) ≠ 0

/-- R121: changing one covered byte changes the checksum, but for a change between 0x00 and 0xFF, which leaves it as it is
(under `CK_INIT = 0x00` unless all other bytes are zero). -/
def Obligations.OneByteChangesAreDetected : Prop :=
  ∀ (before after : List Byte) (b b' : Byte),
    (b ≠ b' → ¬(b = 0x00 ∧ b' = 0xFF) → ¬(b = 0xFF ∧ b' = 0x00) →
      ∀ init, f16 init (before ++ b :: after) ≠ f16 init (before ++ b' :: after)) ∧
    f16 .xFF (before ++ 0x00 :: after) = f16 .xFF (before ++ 0xFF :: after) ∧
    ((∃ x ∈ before ++ after, x ≠ 0) → f16 .x00 (before ++ 0x00 :: after) = f16 .x00 (before ++ 0xFF :: after))

/-! ### FX -/

/-- R190, with the signed reading of the field. -/
def Obligations.Be16AssemblesBigEndian : Prop :=
  ∀ (s : State) (b0 b1 : Byte), ∃ v : Half,
    exec (.fxBe16 b0 b1) s = .next { s with results := s.results ++ [.be16 v] } ∧
    v.toNat = b0.toNat * 2 ^ 8 + b1.toNat ∧
    sext16 v = if b0.toNat < 128 then (v.toNat : Int) else v.toNat - 2 ^ 16

/-- R191, with the signed reading of the field. -/
def Obligations.Be32AssemblesBigEndian : Prop :=
  ∀ (s : State) (b0 b1 b2 b3 : Byte), ∃ v : Word,
    exec (.fxBe32 b0 b1 b2 b3) s = .next { s with results := s.results ++ [.be32 v] } ∧
    v.toNat = b0.toNat * 2 ^ 24 + b1.toNat * 2 ^ 16 + b2.toNat * 2 ^ 8 + b3.toNat ∧
    sext32 v = if b0.toNat < 128 then (v.toNat : Int) else v.toNat - 2 ^ 32

/-- R192: the conversion inside its domain, and the refusals outside it. -/
def Obligations.MilliConvertsInItsDomain : Prop :=
  ∀ (s : State) (w f : Nat),
    (3 ≤ w → w ≤ 32 → f < 2 ^ w →
      exec (.fxMilli w f) s = .next { s with results := s.results ++ [.milli (f * 125 / 2 ^ (w - 3))] }) ∧
    (w < 3 ∨ 32 < w → exec (.fxMilli w f) s = .refused (.milliWidth w)) ∧
    (3 ≤ w → w ≤ 32 → 2 ^ w ≤ f → exec (.fxMilli w f) s = .refused (.milliFraction w f))

/-- R193 (a) to (c): the conversion is the exact floor of thousandths, stays below 1000, and is monotone. -/
def Obligations.MilliIsTheFloorOfThousandths : Prop :=
  ∀ w f : Nat, 3 ≤ w → f < 2 ^ w →
    milli w f = f * 1000 / 2 ^ w ∧ milli w f ≤ 999 ∧ ∀ g, f ≤ g → milli w f ≤ milli w g

/-- R194: the floor split of a Q20.11 word. -/
def Obligations.GaugeIsSplitByFloor : Prop :=
  ∀ (s : State) (v : Word), ∃ (i : Int) (r : Nat),
    v.toInt = 2048 * i + r ∧ r < 2048 ∧ -1048576 ≤ i ∧ i ≤ 1048575 ∧ r * 125 / 2 ^ 8 ≤ 999 ∧
    exec (.fxGauge v) s = .next { s with results := s.results ++ [.gauge i (r * 125 / 2 ^ 8)] }

/-- R195: the counter's integer part is unsigned and unchanged, its fraction is converted with `w = 16`. -/
def Obligations.CounterKeepsItsIntegerPart : Prop :=
  ∀ (s : State) (ip : Word) (fp : Half),
    exec (.fxCounter ip fp) s =
      .next { s with results := s.results ++ [.counter ip.toNat (fp.toNat * 125 / 2 ^ 13)] } ∧
    fp.toNat * 125 / 2 ^ 13 ≤ 999

/-- R196: three digits, leading zeros kept; `F > 999` is refused. -/
def Obligations.Digits3GivesThreeDigits : Prop :=
  ∀ (s : State) (f : Nat),
    (f ≤ 999 → ∃ d2 d1 d0,
      exec (.fxDigits3 f) s = .next { s with results := s.results ++ [.digits3 d2 d1 d0] } ∧
      d2 ≤ 9 ∧ d1 ≤ 9 ∧ d0 ≤ 9 ∧ f = 100 * d2 + 10 * d1 + d0) ∧
    (999 < f → exec (.fxDigits3 f) s = .refused (.digitsRange f))

/-- R197: the two roundings, with the shift read as the floor of the quotient; for a negative angle `sub_half` is one below
`add_half`. -/
def Obligations.Round11FollowsRoundNeg : Prop :=
  ∀ (s : State) (x : Word), ∃ alpha : Int,
    exec (.fxRound11 x) s = .next { s with results := s.results ++ [.round11 alpha] } ∧
    (0 ≤ x.toInt → alpha = (x.toInt + 1024) / 2048) ∧
    (x.toInt < 0 → s.cfg.roundNeg = .subHalf → alpha = (x.toInt - 1024) / 2048 ∧
      alpha = (x.toInt + 1024) / 2048 - 1 ∧ alpha < 0) ∧
    (x.toInt < 0 → s.cfg.roundNeg = .addHalf → alpha = (x.toInt + 1024) / 2048)

/-! ### The whole machine -/

/-- Right after reset the invariant holds, and what has been reported follows the stream (R170). -/
def Obligations.ResetMeetsTheInvariant : Prop := Inv State.reset ∧ FollowsTheStream State.reset

/-- R26: every step, whatever it runs, keeps the invariant. -/
def Obligations.EveryStepKeepsTheInvariant : Prop :=
  ∀ s t : State, Inv s → step s = .next t → Inv t

/-- R170 over every operation: whatever a step runs, for RX or for any other unit, what RX has reported since reset stays what
`parse` gives for the bytes accepted since reset. -/
def Obligations.EveryStepFollowsTheStream : Prop :=
  ∀ s t : State, Inv s → FollowsTheStream s → step s = .next t → FollowsTheStream t

/-- R279: at the end of a run over `input`, `OUT` restricted to the events of RX, `state` and the residue are those of
`parse(AwaitSync1, input)`. -/
def Obligations.EndOfARunIsTheParseOfItsInput : Prop :=
  ∀ (s : State) (input : List Byte), Inv s → FollowsTheStream s → RunEnded input s →
    s.out.filter Event.isRx = (parse s.cfg.ckInit .awaitSync1 input).events ∧
    s.sync = (parse s.cfg.ckInit .awaitSync1 input).sync ∧
    s.buffered = .ok (parse s.cfg.ckInit .awaitSync1 input).residue

/-- R36 and R65: in a state of the invariant no step reads a cell without a value or leaves the ring. -/
def Obligations.NoStepReadsAnUnwrittenCell : Prop :=
  ∀ (s : State) (f : Fault), Inv s → step s ≠ .fault f

/-- R27, R30 and R236: only RX.WRITE (and RESET) changes `head`, a byte of `BUF` or
the record of accepted bytes; only RX.STEP and RX.DRAIN (and RESET) change
`tail` or `state`; nothing changes the configuration. -/
def Obligations.OwnersAloneWriteTheRecord : Prop :=
  ∀ (i : Instr) (s t : State), exec i s = .next t →
    t.cfg = s.cfg ∧
    (i ≠ .reset → byProducer i = false → t.head = s.head ∧ t.buf = s.buf ∧ t.accepted = s.accepted ∧ ∀ a, t.readCell a = s.readCell a) ∧
    (i ≠ .reset → byFramer i = false → t.tail = s.tail ∧ t.sync = s.sync)

/-- R220 and R231: reports are only ever appended, by the operations the table of reports names, at most one by each operation
that is not a loop of others. -/
def Obligations.ReportsComeFromTheirOperations : Prop :=
  ∀ (i : Instr) (s t : State), i ≠ .reset → exec i s = .next t →
    ∃ es, t.out = s.out ++ es ∧ (∀ e ∈ es, mayReport i e = true) ∧ (i ≠ .rxDrain → es.length ≤ 1)

/-- R222, R223, R225 and R227: no step ever reports LenFault, TypeFault, IoReadFault or PersistFault. -/
def Obligations.FourReportsAreNeverRaised : Prop :=
  ∀ s t : State, step s = .next t → ∀ e ∈ t.out,
    e ∈ s.out ∨ (e ≠ .lenFault ∧ e ≠ .typeFault ∧ e ≠ .ioReadFault ∧ e ≠ .persistFault)

/-- R268: with a candidate that can never fit, a full ring hangs: no outcome of the framer and no write changes anything. -/
def Obligations.CapacityDeadlockHoldsForEver : Prop :=
  ∀ (s : State) (length : Byte), Inv s → s.sync = .awaitHeader →
    s.readCell ((s.tail + 1) % s.cfg.capacity) = .ok length → s.cfg.capacity - 1 < length.toNat + 4 →
    s.fill = s.cfg.capacity - 1 →
    (∀ o : RxOutcome, exec o.toInstr s = .next s) ∧ exec .rxDrain s = .next s ∧
    ∀ v : List Byte, v ≠ [] → exec (.rxWrite v) s = .next s

/-- R175: with `C >= 260` a waiting header and a held producer cannot both be. -/
def Obligations.LargeRingsNeverDeadlock : Prop :=
  ∀ s : State, Inv s → s.cfg.DeadlockFree → rxOutcome s = .ok .hdrwait → 0 < s.rxSpace
end

