-- ==== Sys2Proof/Laws/Checksum.lean ====
section
/-! SUPPORT. The laws of the checksum's pieces: the sums over appended lists, one fold, a block without overflow, the
representative modulo 255, and the two check bytes. -/

namespace Sys2Proof.Machine

/-- A fold as a number (R112). -/
theorem fold_toNat (s : Half) : (fold s).toNat = s.toNat % 256 + s.toNat / 256 := by
  have h := s.isLt
  have e : (s &&& (0xFF : Half)).toNat = s.toNat % 256 := by
    simp
    exact Nat.and_two_pow_sub_one_eq_mod s.toNat 8
  simp only [fold, BitVec.toNat_add, e, BitVec.toNat_ushiftRight, Nat.shiftRight_eq_div_pow]
  rw [Nat.mod_eq_of_lt (by omega)]

theorem byteSum_append (a b : List Byte) : byteSum (a ++ b) = byteSum a + byteSum b := by
  induction a with
  | nil => simp [byteSum]
  | cons x a ih => simp [byteSum, ih]; omega

theorem weightedSum_append (a b : List Byte) :
    weightedSum (a ++ b) = weightedSum a + b.length * byteSum a + weightedSum b := by
  induction a with
  | nil => simp [byteSum, weightedSum]
  | cons x a ih => simp only [List.cons_append, byteSum, weightedSum, ih, List.length_append]; ring

/-- A run of bytes adds its two sums, while neither overflows 16 bits (R111, R116). -/
theorem addBytes_toNat (bs : List Byte) (s : Sums) (h1 : s.sum1.toNat + byteSum bs < 65536)
    (h2 : s.sum2.toNat + bs.length * s.sum1.toNat + weightedSum bs < 65536) :
    (s.addBytes bs).sum1.toNat = s.sum1.toNat + byteSum bs ∧
    (s.addBytes bs).sum2.toNat = s.sum2.toNat + bs.length * s.sum1.toNat + weightedSum bs := by
  induction bs generalizing s with
  | nil => simp [Sums.addBytes, byteSum, weightedSum]
  | cons b bs ih =>
    simp only [byteSum, weightedSum, List.length_cons] at h1 h2
    have e1 : (s.addByte b).sum1.toNat = s.sum1.toNat + b.toNat := by
      simp [Sums.addByte]
      omega
    have hx : s.sum2.toNat + (s.sum1.toNat + b.toNat) ≤
        s.sum2.toNat + (bs.length + 1) * s.sum1.toNat + ((bs.length + 1) * b.toNat + weightedSum bs) := by nlinarith
    have e2 : (s.addByte b).sum2.toNat = s.sum2.toNat + (s.sum1.toNat + b.toNat) := by
      have : (s.addByte b).sum2 = s.sum2 + (s.addByte b).sum1 := rfl
      rw [this, BitVec.toNat_add, e1, Nat.mod_eq_of_lt (by omega)]
    obtain ⟨i1, i2⟩ := ih (s.addByte b) (by omega) (by rw [e1, e2]; nlinarith)
    simp only [Sums.addBytes, byteSum, weightedSum, List.length_cons]
    rw [i1, i2, e1, e2]
    constructor
    · omega
    · ring

/-- What `rep` is (R115). -/
theorem rep_spec (n : Nat) : rep n % 255 = n % 255 ∧ (rep n = 0 ↔ n = 0) ∧ rep n ≤ 255 := by
  unfold rep
  split_ifs <;> refine ⟨?_, ?_, ?_⟩ <;> first | omega | (simp; omega)

/-- The check bytes are the checksum, high byte first (R84). -/
theorem beHalf_hiByte_loByte (x : Half) : beHalf (hiByte x) (loByte x) = x := by
  simp only [beHalf, hiByte, loByte]
  ext i hi
  simp
  rcases Nat.lt_or_ge i 8 with h | h
  · simp [h]; rfl
  · simp [show ¬ i < 8 by omega, show i - 8 < 8 by omega, show 8 + (i - 8) = i by omega, hi]

end Sys2Proof.Machine
end

