-- ==== Sys2Proof/Laws/Memory.lean ====
section
/-! SUPPORT. The laws of the ring's cells: a read after a write, and the canonical form, which every memory operation keeps. -/

namespace Sys2Proof.Machine

theorem Memory.read_write_same (m : Memory) (a : Nat) (b : Byte) : (Memory.write m a b).read a = some b := by
  induction m with
  | nil => simp [Memory.write, Memory.read]
  | cons p m ih =>
    obtain ⟨x, y⟩ := p
    simp only [Memory.write]
    split_ifs with h1 h2
    · simp [Memory.read]
    · simp [Memory.read]
    · simp [Memory.read, Ne.symm h2, ih]

theorem Memory.read_write_other (m : Memory) {a c : Nat} (b : Byte) (h : c ≠ a) :
    (Memory.write m a b).read c = m.read c := by
  induction m with
  | nil => simp [Memory.write, Memory.read, Ne.symm h]
  | cons p m ih =>
    obtain ⟨x, y⟩ := p
    simp only [Memory.write]
    split_ifs with h1 h2
    · simp [Memory.read, Ne.symm h]
    · subst h2
      simp [Memory.read, Ne.symm h]
    · simp [Memory.read, ih]

/-- The addresses of a memory are strictly rising, and all of them are above a bound. -/
theorem Memory.wf_cons (p : Host.Cell) (m : Memory) :
    Memory.wf (p :: m) = true ↔ (∀ q ∈ m.head?, p.1 < q.1) ∧ Memory.wf m = true := by
  cases m with
  | nil => simp [Memory.wf]
  | cons q m => simp [Memory.wf]

theorem Memory.head_write (m : Memory) (a : Nat) (b : Byte) (n : Nat) (hn : n < a) (h : ∀ q ∈ m.head?, n < q.1) :
    ∀ q ∈ (Memory.write m a b).head?, n < q.1 := by
  cases m with
  | nil => simpa [Memory.write] using hn
  | cons p m =>
    obtain ⟨x, y⟩ := p
    simp only [Memory.write]
    split_ifs <;> simp_all

/-- A write keeps the canonical form. -/
theorem Memory.write_wf (m : Memory) (a : Nat) (b : Byte) (h : m.wf = true) : (Memory.write m a b).wf = true := by
  induction m with
  | nil => simp [Memory.write, Memory.wf]
  | cons p m ih =>
    obtain ⟨x, y⟩ := p
    have hm := (Memory.wf_cons _ _).1 h
    simp only [Memory.write]
    split_ifs with h1 h2
    · exact (Memory.wf_cons _ _).2 ⟨by simpa using h1, h⟩
    · subst h2
      exact (Memory.wf_cons _ _).2 ⟨hm.1, hm.2⟩
    · exact (Memory.wf_cons _ _).2 ⟨Memory.head_write m a b x (by omega) hm.1, ih hm.2⟩

/-- Writing consecutive bytes keeps the canonical form. -/
theorem Memory.writeBytes_wf (v : List Byte) (m : Memory) (a : Nat) (h : m.wf = true) :
    (Memory.writeBytes m a v).wf = true := by
  induction v generalizing m a with
  | nil => exact h
  | cons b v ih => exact ih _ _ (Memory.write_wf m a b h)

theorem Memory.read_writeBytes_below (v : List Byte) (m : Memory) {a c : Nat} (h : c < a) :
    (Memory.writeBytes m a v).read c = m.read c := by
  induction v generalizing m a with
  | nil => rfl
  | cons b v ih =>
    rw [Memory.writeBytes, ih _ (by omega), Memory.read_write_other _ _ (by omega)]

theorem Memory.read_writeBytes_above (v : List Byte) (m : Memory) {a c : Nat} (h : a + v.length ≤ c) :
    (Memory.writeBytes m a v).read c = m.read c := by
  induction v generalizing m a with
  | nil => rfl
  | cons b v ih =>
    simp only [List.length_cons] at h
    rw [Memory.writeBytes, ih _ (by omega), Memory.read_write_other _ _ (by omega)]

theorem Memory.read_writeBytes_inside (v : List Byte) (m : Memory) (a k : Nat) (h : k < v.length) :
    (Memory.writeBytes m a v).read (a + k) = some v[k] := by
  induction v generalizing m a k with
  | nil => simp at h
  | cons b v ih =>
    cases k with
    | zero =>
      rw [Memory.writeBytes, Memory.read_writeBytes_below _ _ (by omega), Nat.add_zero, Memory.read_write_same]
      rfl
    | succ k =>
      have := ih (Memory.write m a b) (a + 1) k (by simpa using h)
      rw [Memory.writeBytes, show a + (k + 1) = a + 1 + k by omega, this]
      rfl

theorem Memory.mem_write {m : Memory} {a : Nat} {b : Byte} {p : Host.Cell} (h : p ∈ Memory.write m a b) :
    p = (a, b) ∨ p ∈ m := by
  induction m with
  | nil => simpa [Memory.write] using h
  | cons q m ih =>
    obtain ⟨x, y⟩ := q
    simp only [Memory.write] at h
    split_ifs at h with h1 h2
    · simpa using h
    · rcases List.mem_cons.1 h with h | h
      · exact .inl h
      · exact .inr (List.mem_cons_of_mem _ h)
    · rcases List.mem_cons.1 h with h | h
      · exact .inr (by simp [h])
      · exact (ih h).imp id (List.mem_cons_of_mem _)

/-- What a run of writes lists was listed before or lies in the written range. -/
theorem Memory.mem_writeBytes {v : List Byte} {m : Memory} {a : Nat} {p : Host.Cell}
    (h : p ∈ Memory.writeBytes m a v) : (a ≤ p.1 ∧ p.1 < a + v.length) ∨ p ∈ m := by
  induction v generalizing m a with
  | nil => exact .inr h
  | cons b v ih =>
    rcases ih h with h | h
    · exact .inl ⟨by omega, by simp only [List.length_cons]; omega⟩
    · rcases Memory.mem_write h with h | h
      · exact .inl (by subst h; simp)
      · exact .inr h

end Sys2Proof.Machine
end

