-- ==== Sys2Proof/Laws/PerInstr.lean ====
section
/-! SUPPORT. One statement made per operation: the encoder writes each operation in the format its row of
spec/opcode_table.json has. -/

namespace Sys2Proof.Laws.EncodingFormat

open Sys2Proof

/-- The formats of the table's rows. -/
inductive Format where
  | streamByte
  | streamNone
  | frameHeader
  | wireFrame
  | port
deriving DecidableEq, Repr

/-- The format of an encoding: a byte read in a sync state, no byte, bytes read in AwaitHeader, a whole frame, a request. -/
def formatOf : Encoding → Format
  | .stream .awaitSync1 [] => .streamNone
  | .stream .awaitSync2 [] => .streamNone
  | .stream .awaitSync1 (_ :: _) => .streamByte
  | .stream .awaitSync2 (_ :: _) => .streamByte
  | .stream .awaitHeader _ => .frameHeader
  | .frame _ => .wireFrame
  | .port _ => .port

/-- The format column of the table. -/
def rowFormat : Instr → Format
  | .rxStepS1hit => .streamByte
  | .rxStepS1miss => .streamByte
  | .rxStepS2hit => .streamByte
  | .rxStepS2miss => .streamByte
  | .rxStepStopempty => .streamNone
  | .rxStepHdrwait => .frameHeader
  | .rxStepFrameok => .frameHeader
  | .rxStepFramebad => .frameHeader
  | .txEncode _ _ => .wireFrame
  | .txEncodeToolarge _ _ => .port
  | .txWrite _ _ => .port
  | .ckF16 _ => .port
  | .rxWrite _ => .port
  | .rxDrain => .port
  | .plRead _ => .port
  | .fxBe16 _ _ => .port
  | .fxBe32 _ _ _ _ => .port
  | .fxMilli _ _ => .port
  | .fxGauge _ => .port
  | .fxCounter _ _ => .port
  | .fxDigits3 _ => .port
  | .fxRound11 _ => .port
  | .reset => .port

/-- The encoder keeps the row's format, whatever the operands and the configuration are. -/
def Statement (i : Instr) : Prop := ∀ c : Config, formatOf (encode c i) = rowFormat i

theorem rxStepS1hit : Statement .rxStepS1hit := fun _ => rfl
theorem rxStepS1miss : Statement .rxStepS1miss := fun _ => rfl
theorem rxStepS2hit : Statement .rxStepS2hit := fun _ => rfl
theorem rxStepS2miss : Statement .rxStepS2miss := fun _ => rfl
theorem rxStepStopempty : Statement .rxStepStopempty := fun _ => rfl
theorem rxStepHdrwait : Statement .rxStepHdrwait := fun _ => rfl
theorem rxStepFrameok : Statement .rxStepFrameok := fun _ => rfl
theorem rxStepFramebad : Statement .rxStepFramebad := fun _ => rfl
theorem txEncode (type : Byte) (payload : List Byte) : Statement (.txEncode type payload) := fun _ => rfl
theorem txEncodeToolarge (type : Byte) (n : Nat) : Statement (.txEncodeToolarge type n) := fun _ => rfl
theorem txWrite (frame : List Byte) (answer : LinkAnswer) : Statement (.txWrite frame answer) := fun _ => rfl
theorem ckF16 (d : List Byte) : Statement (.ckF16 d) := fun _ => rfl
theorem rxWrite (v : List Byte) : Statement (.rxWrite v) := fun _ => rfl
theorem rxDrain : Statement .rxDrain := fun _ => rfl
theorem plRead (k : Nat) : Statement (.plRead k) := fun _ => rfl
theorem fxBe16 (b0 b1 : Byte) : Statement (.fxBe16 b0 b1) := fun _ => rfl
theorem fxBe32 (b0 b1 b2 b3 : Byte) : Statement (.fxBe32 b0 b1 b2 b3) := fun _ => rfl
theorem fxMilli (w f : Nat) : Statement (.fxMilli w f) := fun _ => rfl
theorem fxGauge (v : Word) : Statement (.fxGauge v) := fun _ => rfl
theorem fxCounter (ip : Word) (fp : Half) : Statement (.fxCounter ip fp) := fun _ => rfl
theorem fxDigits3 (f : Nat) : Statement (.fxDigits3 f) := fun _ => rfl
theorem fxRound11 (x : Word) : Statement (.fxRound11 x) := fun _ => rfl
theorem reset : Statement .reset := fun _ => rfl

end Sys2Proof.Laws.EncodingFormat
end

