-- ==== Sys2Proof/Laws/State.lean ====
section
/-! SUPPORT. The small lemmas of the state updates: what each leaves in each field, and that what is read of the ring depends on
the ring's fields only. -/

namespace Sys2Proof.Machine

@[simp] theorem State.emit_cfg (s : State) (e : Event) : (s.emit e).cfg = s.cfg := rfl
@[simp] theorem State.emit_buf (s : State) (e : Event) : (s.emit e).buf = s.buf := rfl
@[simp] theorem State.emit_head (s : State) (e : Event) : (s.emit e).head = s.head := rfl
@[simp] theorem State.emit_tail (s : State) (e : Event) : (s.emit e).tail = s.tail := rfl
@[simp] theorem State.emit_sync (s : State) (e : Event) : (s.emit e).sync = s.sync := rfl
@[simp] theorem State.emit_out (s : State) (e : Event) : (s.emit e).out = s.out ++ [e] := rfl
@[simp] theorem State.emit_delivery (s : State) (e : Event) : (s.emit e).delivery = s.delivery := rfl
@[simp] theorem State.emit_inputs (s : State) (e : Event) : (s.emit e).inputs = s.inputs := rfl
@[simp] theorem State.emit_results (s : State) (e : Event) : (s.emit e).results = s.results := rfl
@[simp] theorem State.emit_handed (s : State) (e : Event) : (s.emit e).handed = s.handed := rfl
@[simp] theorem State.emit_sent (s : State) (e : Event) : (s.emit e).sent = s.sent := rfl
@[simp] theorem State.emit_accepted (s : State) (e : Event) : (s.emit e).accepted = s.accepted := rfl

@[simp] theorem State.raise_cfg (s : State) (e : Event) : (s.raise e).cfg = s.cfg := rfl
@[simp] theorem State.raise_buf (s : State) (e : Event) : (s.raise e).buf = s.buf := rfl
@[simp] theorem State.raise_head (s : State) (e : Event) : (s.raise e).head = s.head := rfl
@[simp] theorem State.raise_tail (s : State) (e : Event) : (s.raise e).tail = s.tail := rfl
@[simp] theorem State.raise_sync (s : State) (e : Event) : (s.raise e).sync = s.sync := rfl
@[simp] theorem State.raise_out (s : State) (e : Event) : (s.raise e).out = s.out ++ [e] := rfl
@[simp] theorem State.raise_delivery (s : State) (e : Event) : (s.raise e).delivery = s.delivery := rfl
@[simp] theorem State.raise_inputs (s : State) (e : Event) : (s.raise e).inputs = s.inputs := rfl
@[simp] theorem State.raise_results (s : State) (e : Event) : (s.raise e).results = s.results := rfl
@[simp] theorem State.raise_handed (s : State) (e : Event) : (s.raise e).handed = s.handed := rfl
@[simp] theorem State.raise_sent (s : State) (e : Event) : (s.raise e).sent = s.sent := rfl
@[simp] theorem State.raise_accepted (s : State) (e : Event) : (s.raise e).accepted = s.accepted := rfl

@[simp] theorem State.respond_cfg (s : State) (r : Result) : (s.respond r).cfg = s.cfg := rfl
@[simp] theorem State.respond_buf (s : State) (r : Result) : (s.respond r).buf = s.buf := rfl
@[simp] theorem State.respond_head (s : State) (r : Result) : (s.respond r).head = s.head := rfl
@[simp] theorem State.respond_tail (s : State) (r : Result) : (s.respond r).tail = s.tail := rfl
@[simp] theorem State.respond_sync (s : State) (r : Result) : (s.respond r).sync = s.sync := rfl
@[simp] theorem State.respond_out (s : State) (r : Result) : (s.respond r).out = s.out := rfl
@[simp] theorem State.respond_delivery (s : State) (r : Result) : (s.respond r).delivery = s.delivery := rfl
@[simp] theorem State.respond_inputs (s : State) (r : Result) : (s.respond r).inputs = s.inputs := rfl
@[simp] theorem State.respond_results (s : State) (r : Result) : (s.respond r).results = s.results ++ [r] := rfl
@[simp] theorem State.respond_handed (s : State) (r : Result) : (s.respond r).handed = s.handed := rfl
@[simp] theorem State.respond_sent (s : State) (r : Result) : (s.respond r).sent = s.sent := rfl
@[simp] theorem State.respond_accepted (s : State) (r : Result) : (s.respond r).accepted = s.accepted := rfl

@[simp] theorem State.consume_cfg (s : State) (n : Nat) (st : SyncState) : (s.consume n st).cfg = s.cfg := rfl
@[simp] theorem State.consume_buf (s : State) (n : Nat) (st : SyncState) : (s.consume n st).buf = s.buf := rfl
@[simp] theorem State.consume_head (s : State) (n : Nat) (st : SyncState) : (s.consume n st).head = s.head := rfl
@[simp] theorem State.consume_tail (s : State) (n : Nat) (st : SyncState) : (s.consume n st).tail = s.wrap (s.tail + n) := rfl
@[simp] theorem State.consume_sync (s : State) (n : Nat) (st : SyncState) : (s.consume n st).sync = st := rfl
@[simp] theorem State.consume_out (s : State) (n : Nat) (st : SyncState) : (s.consume n st).out = s.out := rfl
@[simp] theorem State.consume_delivery (s : State) (n : Nat) (st : SyncState) : (s.consume n st).delivery = s.delivery := rfl
@[simp] theorem State.consume_inputs (s : State) (n : Nat) (st : SyncState) : (s.consume n st).inputs = s.inputs := rfl
@[simp] theorem State.consume_results (s : State) (n : Nat) (st : SyncState) : (s.consume n st).results = s.results := rfl
@[simp] theorem State.consume_handed (s : State) (n : Nat) (st : SyncState) : (s.consume n st).handed = s.handed := rfl
@[simp] theorem State.consume_sent (s : State) (n : Nat) (st : SyncState) : (s.consume n st).sent = s.sent := rfl
@[simp] theorem State.consume_accepted (s : State) (n : Nat) (st : SyncState) : (s.consume n st).accepted = s.accepted := rfl

/-- The ring's fields: what indices, fill and cells depend on. -/
structure SameRing (s t : State) : Prop where
  cfg : t.cfg = s.cfg
  buf : t.buf = s.buf
  head : t.head = s.head
  tail : t.tail = s.tail

theorem SameRing.refl (s : State) : SameRing s s := ⟨rfl, rfl, rfl, rfl⟩

theorem SameRing.trans {s t u : State} (h : SameRing s t) (h' : SameRing t u) : SameRing s u :=
  ⟨h'.cfg.trans h.cfg, h'.buf.trans h.buf, h'.head.trans h.head, h'.tail.trans h.tail⟩

theorem SameRing.fill {s t : State} (h : SameRing s t) : t.fill = s.fill := by
  simp [State.fill, h.cfg, h.head, h.tail]

theorem SameRing.wrap {s t : State} (h : SameRing s t) (a : Nat) : t.wrap a = s.wrap a := by
  simp [State.wrap, h.cfg]

theorem SameRing.readCell {s t : State} (h : SameRing s t) (a : Nat) : t.readCell a = s.readCell a := by
  simp [State.readCell, h.cfg, h.buf]

/-- Reading the ring depends on the configuration and the cells only. -/
theorem ringRead_congr {s t : State} (hc : t.cfg = s.cfg) (hb : t.buf = s.buf) (a n : Nat) :
    t.ringRead a n = s.ringRead a n := by
  have hw : ∀ x, t.wrap x = s.wrap x := fun x => by simp [State.wrap, hc]
  have hr : ∀ x, t.readCell x = s.readCell x := fun x => by simp [State.readCell, hc, hb]
  induction n generalizing a with
  | zero => rfl
  | succ n ih => rw [State.ringRead, State.ringRead, hw, hr, ih]

theorem SameRing.ringRead {s t : State} (h : SameRing s t) (a n : Nat) : t.ringRead a n = s.ringRead a n :=
  ringRead_congr h.cfg h.buf a n

theorem SameRing.buffered {s t : State} (h : SameRing s t) : t.buffered = s.buffered := by
  simp [State.buffered, h.ringRead, h.fill, h.tail]

theorem sameRing_emit (s : State) (e : Event) : SameRing s (s.emit e) := ⟨rfl, rfl, rfl, rfl⟩

theorem sameRing_raise (s : State) (e : Event) : SameRing s (s.raise e) := ⟨rfl, rfl, rfl, rfl⟩

theorem sameRing_respond (s : State) (r : Result) : SameRing s (s.respond r) := ⟨rfl, rfl, rfl, rfl⟩

end Sys2Proof.Machine
end

