-- ==== Sys2Proof/Laws/Ring.lean ====
section
/-! SUPPORT. The laws of the ring: the indices and the fill, RingRead and RingWrite, and the buffered bytes. -/

namespace Sys2Proof.Machine

theorem readCell_ok_lt {s : State} {a : Nat} {b : Byte} (h : s.readCell a = .ok b) : a < s.cfg.capacity := by
  unfold State.readCell at h
  split_ifs at h with h1
  exact h1

theorem readCell_of_read {s : State} {a : Nat} {b : Byte} (ha : a < s.cfg.capacity) (h : s.buf.read a = some b) :
    s.readCell a = .ok b := by
  simp [State.readCell, ha, h]

theorem wrap_lt (s : State) (a : Nat) (h : 0 < s.cfg.capacity) : s.wrap a < s.cfg.capacity := Nat.mod_lt _ h

theorem wrap_of_lt (s : State) {a : Nat} (h : a < s.cfg.capacity) : s.wrap a = a := Nat.mod_eq_of_lt h

theorem wrap_wrap_add (s : State) (a k : Nat) : s.wrap (s.wrap a + k) = s.wrap (a + k) := by
  simp [State.wrap]

/-- RingRead gives the bytes of the cells `(a + k) mod C`, in order, and only if every one of them can be read (R52). -/
theorem ringRead_eq_ok_iff (s : State) (a n : Nat) (bs : List Byte) :
    s.ringRead a n = .ok bs ↔
      bs.length = n ∧ ∀ k (h : k < bs.length), s.readCell (s.wrap (a + k)) = .ok bs[k] := by
  induction n generalizing a bs with
  | zero =>
    constructor
    · intro h
      simp only [State.ringRead, Except.ok.injEq] at h
      subst h
      simp
    · rintro ⟨h, -⟩
      rw [List.length_eq_zero_iff.1 h, State.ringRead]
  | succ n ih =>
    constructor
    · intro h
      simp only [State.ringRead] at h
      split at h
      · cases h
      · rename_i b hb
        split at h
        · cases h
        · rename_i cs hcs
          cases h
          obtain ⟨hl, hc⟩ := (ih _ _).1 hcs
          refine ⟨by simp [hl], fun k hk => ?_⟩
          cases k with
          | zero => simpa using hb
          | succ k =>
            have := hc k (by simpa using hk)
            rw [show a + (k + 1) = a + 1 + k by omega, this]
            rfl
    · rintro ⟨hl, hc⟩
      cases bs with
      | nil => simp at hl
      | cons b bs =>
        have h0 := hc 0 (by simp)
        have h1 : s.ringRead (a + 1) n = .ok bs := by
          refine (ih _ _).2 ⟨by simpa using hl, fun k hk => ?_⟩
          have := hc (k + 1) (by simpa using hk)
          rw [show a + (k + 1) = a + 1 + k by omega] at this
          simpa using this
        simp only [Nat.add_zero, List.getElem_cons_zero] at h0
        simp only [State.ringRead, h0, h1]

/-- RingRead answers if every cell it reads can be read. -/
theorem ringRead_ok_of_cells (s : State) (a n : Nat) (h : ∀ k < n, ∃ b, s.readCell (s.wrap (a + k)) = .ok b) :
    ∃ bs, s.ringRead a n = .ok bs := by
  induction n generalizing a with
  | zero => exact ⟨[], rfl⟩
  | succ n ih =>
    obtain ⟨b, hb⟩ := h 0 (by omega)
    obtain ⟨bs, hbs⟩ := ih (a + 1) fun k hk => by
      obtain ⟨c, hc⟩ := h (k + 1) (by omega)
      exact ⟨c, by rw [← hc]; congr 2; omega⟩
    simp only [Nat.add_zero] at hb
    exact ⟨b :: bs, by simp only [State.ringRead, hb, hbs]⟩

/-- A shorter RingRead from the same index is a prefix. -/
theorem ringRead_take {s : State} {a n m : Nat} {bs : List Byte} (h : s.ringRead a n = .ok bs) (hm : m ≤ n) :
    s.ringRead a m = .ok (bs.take m) := by
  obtain ⟨hl, hc⟩ := (ringRead_eq_ok_iff _ _ _ _).1 h
  refine (ringRead_eq_ok_iff _ _ _ _).2 ⟨by simp; omega, fun k hk => ?_⟩
  rw [List.getElem_take]
  exact hc k (by simp at hk; omega)

/-- A RingRead that starts later is a suffix. -/
theorem ringRead_drop {s : State} {a n m : Nat} {bs : List Byte} (h : s.ringRead a n = .ok bs) (hm : m ≤ n) :
    s.ringRead (a + m) (n - m) = .ok (bs.drop m) := by
  obtain ⟨hl, hc⟩ := (ringRead_eq_ok_iff _ _ _ _).1 h
  refine (ringRead_eq_ok_iff _ _ _ _).2 ⟨by simp [hl], fun k hk => ?_⟩
  rw [List.getElem_drop, Nat.add_assoc]
  exact hc (m + k) (by simp at hk; omega)

/-- RingRead depends on its start index modulo `C` only (R51). -/
theorem ringRead_mod {s : State} {a b : Nat} (n : Nat) (h : s.wrap a = s.wrap b) : s.ringRead a n = s.ringRead b n := by
  induction n generalizing a b with
  | zero => rfl
  | succ n ih =>
    have h1 : s.wrap (a + 1) = s.wrap (b + 1) := by rw [← wrap_wrap_add s a 1, h, wrap_wrap_add]
    rw [State.ringRead, State.ringRead, h, ih h1]

/-- The start index of a RingRead may be reduced (R51). -/
theorem ringRead_wrap (s : State) (a n : Nat) : s.ringRead (s.wrap a) n = s.ringRead a n :=
  ringRead_mod n (by simpa using wrap_wrap_add s a 0)

/-- What RingWrite does when it answers: the range fits, and only `BUF` changes (R53). -/
theorem ringWrite_ok {s t : State} {a : Nat} {v : List Byte} (h : s.ringWrite a v = .ok t) :
    a + v.length ≤ s.cfg.capacity ∧ t = { s with buf := s.buf.writeBytes a v } := by
  unfold State.ringWrite at h
  split_ifs at h with h1
  exact ⟨h1, by cases h; rfl⟩

theorem ringWrite_of_fits {s : State} {a : Nat} {v : List Byte} (h : a + v.length ≤ s.cfg.capacity) :
    s.ringWrite a v = .ok { s with buf := s.buf.writeBytes a v } := by
  simp [State.ringWrite, h]

/-- The two cases of the fill (R25), for indices in range. -/
theorem fill_cases {s : State} (hh : s.head < s.cfg.capacity) (ht : s.tail < s.cfg.capacity) :
    (s.tail ≤ s.head ∧ s.fill = s.head - s.tail) ∨
    (s.head < s.tail ∧ s.fill = s.cfg.capacity - s.tail + s.head) := by
  unfold State.fill
  rcases Nat.lt_or_ge s.head s.tail with h | h
  · exact .inr ⟨h, by rw [Nat.mod_eq_of_lt (by omega)]; omega⟩
  · refine .inl ⟨h, ?_⟩
    rw [show s.head + (s.cfg.capacity - s.tail) = s.head - s.tail + s.cfg.capacity by omega, Nat.add_mod_right,
      Nat.mod_eq_of_lt (by omega)]

theorem fill_lt {s : State} (h : 0 < s.cfg.capacity) : s.fill < s.cfg.capacity := Nat.mod_lt _ h

/-- `head` is the index `fill` cells after `tail` (R25). -/
theorem wrap_tail_fill {s : State} (hh : s.head < s.cfg.capacity) (ht : s.tail < s.cfg.capacity) :
    s.wrap (s.tail + s.fill) = s.head := by
  unfold State.wrap
  rcases fill_cases hh ht with ⟨h, e⟩ | ⟨h, e⟩
  · rw [e, Nat.mod_eq_of_lt (by omega)]; omega
  · rw [e, show s.tail + (s.cfg.capacity - s.tail + s.head) = s.head + s.cfg.capacity by omega, Nat.add_mod_right,
      Nat.mod_eq_of_lt hh]

/-- Moving `tail` forward by `n` buffered bytes lowers the fill by `n` (R23, R28). -/
theorem fill_consume {s : State} (hh : s.head < s.cfg.capacity) (ht : s.tail < s.cfg.capacity) {n : Nat} (hn : n ≤ s.fill)
    (st : SyncState) : (s.consume n st).fill = s.fill - n := by
  have hc : 0 < s.cfg.capacity := by omega
  have ht' : (s.consume n st).tail < (s.consume n st).cfg.capacity := wrap_lt s _ hc
  have hlt := fill_lt hc
  have hw : s.wrap (s.tail + n) = if s.tail + n < s.cfg.capacity then s.tail + n else s.tail + n - s.cfg.capacity := by
    unfold State.wrap
    split_ifs with h
    · exact Nat.mod_eq_of_lt h
    · rw [Nat.mod_eq_sub_mod (by omega), Nat.mod_eq_of_lt (by omega)]
  rcases fill_cases hh ht with ⟨h, e⟩ | ⟨h, e⟩ <;>
    rcases fill_cases (s := s.consume n st) hh ht' with ⟨h', e'⟩ | ⟨h', e'⟩ <;>
    simp only [State.consume_head, State.consume_tail, State.consume_cfg, hw] at h' e' ⊢ <;>
    split_ifs at h' e' <;> omega

end Sys2Proof.Machine
end

