-- ==== Sys2Proof/Laws/Rx.lean ====
section
/-! SUPPORT. What the framer's operations can do: the candidate cut out of the buffered bytes, the fetch, the delivery, and one
inversion lemma for RX.STEP and one for RX.WRITE, which later proofs cite instead of unfolding the meanings. -/

namespace Sys2Proof.Machine

/-- A candidate is cut out exactly when the bytes begin with its fields (R81, R160, R161). -/
theorem parseCandidate_eq_some_iff (bs : List Byte) (f : Candidate) :
    parseCandidate bs = some f ↔
      ∃ hi lo extra, bs = f.type :: f.length :: (f.payload ++ hi :: lo :: extra) ∧
        f.payload.length = f.length.toNat ∧ f.recv = beHalf hi lo := by
  constructor
  · intro h
    match bs, h with
    | type :: length :: rest, h =>
      simp only [parseCandidate] at h
      split at h
      · rename_i hi lo extra hd
        cases h
        refine ⟨hi, lo, extra, ?_, ?_, rfl⟩
        · rw [← hd, List.take_append_drop]
        · have := congrArg List.length hd
          simp at this ⊢
          omega
      · cases h
  · rintro ⟨hi, lo, extra, rfl, hl, hr⟩
    simp [parseCandidate, ← hl, ← hr]

/-- No candidate: fewer than two bytes, or fewer than the length byte asks for (R159). -/
theorem parseCandidate_eq_none_iff (bs : List Byte) :
    parseCandidate bs = none ↔ ∀ type length rest, bs = type :: length :: rest → rest.length < length.toNat + 2 := by
  match bs with
  | [] => simp [parseCandidate]
  | [_] => simp [parseCandidate]
  | type :: length :: rest =>
    simp only [parseCandidate, List.cons.injEq]
    constructor
    · intro h t l r e
      obtain ⟨rfl, rfl, rfl⟩ := e
      split at h
      · cases h
      · rename_i hd
        by_contra hlt
        match he : rest.drop length.toNat with
        | [] => have := congrArg List.length he; simp at this; omega
        | [_] => have := congrArg List.length he; simp at this; omega
        | hi :: lo :: ex => exact hd hi lo ex he
    · intro h
      have hlt := h type length rest ⟨rfl, rfl, rfl⟩
      split
      · rename_i hi lo extra hd
        have := congrArg List.length hd
        simp at this
        omega
      · rfl

/-- A candidate does not depend on the bytes behind it. -/
theorem parseCandidate_take {bs : List Byte} {f : Candidate} (h : parseCandidate bs = some f) :
    parseCandidate (bs.take (frameSize f.length)) = some f := by
  obtain ⟨hi, lo, extra, rfl, hl, hr⟩ := (parseCandidate_eq_some_iff _ _).1 h
  refine (parseCandidate_eq_some_iff _ _).2 ⟨hi, lo, [], ?_, hl, hr⟩
  rw [frameSize, ← hl]
  simp [List.take_append]

theorem parseCandidate_length {bs : List Byte} {f : Candidate} (h : parseCandidate bs = some f) :
    frameSize f.length ≤ bs.length := by
  obtain ⟨hi, lo, extra, rfl, hl, -⟩ := (parseCandidate_eq_some_iff _ _).1 h
  simp [frameSize, ← hl]

/-- The length of what is buffered is the fill (R25). -/
theorem buffered_length {s : State} {bs : List Byte} (h : s.buffered = .ok bs) : bs.length = s.fill :=
  ((ringRead_eq_ok_iff _ _ _ _).1 h).1

/-- A state of the invariant has its buffered bytes (R65). -/
theorem Inv.buffered_ok {s : State} (h : Inv s) : ∃ bs, s.buffered = .ok bs := by
  refine ringRead_ok_of_cells _ _ _ fun k hk => ?_
  obtain ⟨b, hb⟩ := Option.isSome_iff_exists.1 (h.filledWritten k hk)
  exact ⟨b, readCell_of_read (wrap_lt _ _ (by have := h.cfgValid.1; omega)) hb⟩

/-- The fetch gives the decoder all it needs: it selects what the whole of the buffered bytes would select (R65, R153). -/
theorem rxFetch_of_buffered {s : State} {bs : List Byte} (h : s.buffered = .ok bs) :
    ∃ fs, rxFetch s = .ok fs ∧ decodeStream s.cfg s.sync fs = decodeStream s.cfg s.sync bs ∧
      (s.sync = .awaitHeader → parseCandidate fs = parseCandidate bs) := by
  have hl := buffered_length h
  have sync_case (hs : s.sync ≠ .awaitHeader) :
      rxFetch s = (if s.fill = 0 then .ok [] else s.ringRead s.tail 1) := by
    unfold rxFetch
    cases hs' : s.sync <;> simp_all
  cases hs : s.sync with
  | awaitHeader =>
    have none_case (hn : parseCandidate bs = none) (hf : rxFetch s = .ok []) :
        ∃ fs, rxFetch s = .ok fs ∧ decodeStream s.cfg .awaitHeader fs = decodeStream s.cfg .awaitHeader bs ∧
          (SyncState.awaitHeader = .awaitHeader → parseCandidate fs = parseCandidate bs) :=
      ⟨[], hf, by simp only [decodeStream, hn]; rfl, fun _ => by rw [hn]; rfl⟩
    by_cases h4 : s.fill < 4
    · refine none_case ((parseCandidate_eq_none_iff _).2 ?_) (by simp [rxFetch, hs, h4])
      rintro type length rest rfl
      simp at hl
      omega
    · match bs, h, hl, none_case with
      | [], _, hl, _ => simp at hl; omega
      | [_], _, hl, _ => simp at hl; omega
      | type :: length :: rest, h, hl, none_case =>
        have h1 : s.readCell (s.wrap (s.tail + 1)) = .ok length :=
          ((ringRead_eq_ok_iff _ _ _ _).1 h).2 1 (by simp)
        by_cases hfs : s.fill < frameSize length
        · refine none_case ((parseCandidate_eq_none_iff _).2 ?_) (by simp [rxFetch, hs, h4, h1, hfs])
          intro t l r e
          cases e
          simp [frameSize] at hl hfs
          omega
        · have hp := ringRead_take h (Nat.le_of_not_lt hfs)
          obtain ⟨f, hf⟩ : ∃ f, parseCandidate (type :: length :: rest) = some f := by
            cases hc : parseCandidate (type :: length :: rest) with
            | some f => exact ⟨f, rfl⟩
            | none =>
              have := (parseCandidate_eq_none_iff _).1 hc type length rest rfl
              simp [frameSize] at hl hfs
              omega
          have hfl : f.length = length := by
            obtain ⟨_, _, _, e, _, _⟩ := (parseCandidate_eq_some_iff _ _).1 hf
            simp at e
            exact e.2.1.symm
          have ht := parseCandidate_take hf
          rw [hfl] at ht
          refine ⟨(type :: length :: rest).take (frameSize length), ?_, ?_, fun _ => by rw [ht, hf]⟩
          · simp only [rxFetch, hs, h4, if_false, h1, hfs, hp]
          · simp only [decodeStream, ht, hf]
  | awaitSync1 =>
    rw [sync_case (by simp [hs])]
    by_cases hz : s.fill = 0
    · refine ⟨[], by simp [hz], ?_, by simp⟩
      rw [List.length_eq_zero_iff.1 (hl.trans hz)]
    · refine ⟨bs.take 1, by simp [hz, ringRead_take h (by omega : 1 ≤ s.fill)], ?_, by simp⟩
      cases bs with
      | nil => simp at hl; omega
      | cons b bs => simp [decodeStream]
  | awaitSync2 =>
    rw [sync_case (by simp [hs])]
    by_cases hz : s.fill = 0
    · refine ⟨[], by simp [hz], ?_, by simp⟩
      rw [List.length_eq_zero_iff.1 (hl.trans hz)]
    · refine ⟨bs.take 1, by simp [hz, ringRead_take h (by omega : 1 ≤ s.fill)], ?_, by simp⟩
      cases bs with
      | nil => simp at hl; omega
      | cons b bs => simp [decodeStream]

/-- The buffered bytes after `n` of them are consumed (R23, R25). -/
theorem buffered_consume {s : State} {bs : List Byte} (hh : s.head < s.cfg.capacity) (ht : s.tail < s.cfg.capacity)
    (h : s.buffered = .ok bs) {n : Nat} (hn : n ≤ s.fill) (st : SyncState) :
    (s.consume n st).buffered = .ok (bs.drop n) := by
  unfold State.buffered
  rw [fill_consume hh ht hn, State.consume_tail, ringRead_congr (t := s.consume n st) (s := s) rfl rfl, ringRead_wrap]
  exact ringRead_drop h hn

/-- Consuming buffered bytes keeps the invariant (R26). -/
theorem Inv.consume {s : State} (h : Inv s) {n : Nat} (hn : n ≤ s.fill) (st : SyncState) : Inv (s.consume n st) where
  cfgValid := h.cfgValid
  bufWf := h.bufWf
  bufInRing := h.bufInRing
  headInRing := h.headInRing
  tailInRing := wrap_lt s _ (by have := h.cfgValid.1; omega)
  filledWritten k hk := by
    rw [fill_consume h.headInRing h.tailInRing hn] at hk
    have := h.filledWritten (n + k) (by omega)
    simp only [State.consume_buf, State.consume_tail]
    rw [show (s.consume n st).wrap = s.wrap from rfl, wrap_wrap_add]
    rwa [Nat.add_assoc]
  noDelivery := h.noDelivery

/-- The invariant depends on the receive record only. -/
theorem Inv.of_sameRing {s t : State} (h : Inv s) (e : SameRing s t) (hd : t.delivery = none) : Inv t where
  cfgValid := by rw [e.cfg]; exact h.cfgValid
  bufWf := by rw [e.buf]; exact h.bufWf
  bufInRing := by rw [e.buf, e.cfg]; exact h.bufInRing
  headInRing := by rw [e.head, e.cfg]; exact h.headInRing
  tailInRing := by rw [e.tail, e.cfg]; exact h.tailInRing
  filledWritten k hk := by
    rw [e.fill] at hk
    rw [e.buf, e.tail, e.wrap]
    exact h.filledWritten k hk
  noDelivery := hd

/-- What PL.READ does when it answers: the window is open, and only the response is new (R167). -/
theorem readPayload_next {k : Nat} {s t : State} (h : readPayload k s = .next t) :
    ∃ n b, s.delivery = some n ∧ k < n ∧ s.readCell (s.wrap (s.tail + 2 + k)) = .ok b ∧
      t = s.respond (.payloadByte b) := by
  unfold readPayload at h
  split at h
  · cases h
  · rename_i n hn
    split_ifs at h with hk
    split at h
    · cases h
    · rename_i b hb
      cases h
      exact ⟨n, b, hn, hk, hb, rfl⟩

/-- The HOST's reads inside a delivery change nothing but the requests on port `pl` and the responses (R66, R167, R169). -/
theorem serveReads_frame (ms : List Move) (s : State) :
    serveReads ms s = { s with inputs := (serveReads ms s).inputs, results := (serveReads ms s).results } := by
  induction ms generalizing s with
  | nil => rfl
  | cons m ms ih =>
    match m with
    | .port (.pl k) =>
      simp only [serveReads]
      split
      · rename_i s' h
        obtain ⟨n, b, -, -, -, rfl⟩ := readPayload_next h
        rw [ih]
        rfl
      · rfl
      · rfl
    | .frm => rfl
    | .port (.rx _) => rfl
    | .port .drain => rfl
    | .port (.enc _ _) => rfl
    | .port (.tx _ _) => rfl
    | .port (.ck _) => rfl
    | .port (.be16 _ _) => rfl
    | .port (.be32 _ _ _ _) => rfl
    | .port (.milli _ _) => rfl
    | .port (.gauge _) => rfl
    | .port (.counter _ _) => rfl
    | .port (.digits3 _) => rfl
    | .port (.round11 _) => rfl
    | .port .reset => rfl

/-- What the HOST's reads inside a delivery do: they answer the payload reads that stand next on the ports, with the payload
bytes, and stop at the first other move (R167; log 6). -/
theorem serveReads_open (n : Nat) (payload : List Byte) (hp : payload.length = n) (ms : List Move) (s : State)
    (hd : s.delivery = some n) (hms : s.inputs = ms)
    (hr : ∀ k (h : k < payload.length), s.readCell (s.wrap (s.tail + 2 + k)) = .ok payload[k]) :
    ∃ (ks : List Nat) (later : List Move),
      serveReads ms s =
        { s with inputs := later, results := s.results ++ ks.map fun k => .payloadByte (payload.getD k 0) } ∧
      ms = (ks.map fun k => .port (.pl k)) ++ later ∧ (∀ k ∈ ks, k < n) ∧
      (∀ k rest, later = .port (.pl k) :: rest → n ≤ k) := by
  induction ms generalizing s with
  | nil => exact ⟨[], [], by simp [serveReads, ← hms], by simp, by simp, by simp⟩
  | cons m ms ih =>
    by_cases hm : ∃ k, m = .port (.pl k)
    · obtain ⟨k, rfl⟩ := hm
      by_cases hk : k < n
      · have hkp : k < payload.length := by omega
        have hc : State.readCell { s with inputs := ms } (State.wrap { s with inputs := ms } (s.tail + 2 + k)) =
            .ok payload[k] := hr k hkp
        have hrd : readPayload k { s with inputs := ms } =
            .next (State.respond { s with inputs := ms } (.payloadByte payload[k])) := by
          unfold readPayload
          split
          · rename_i e
            exact absurd (hd.symm.trans e) (by simp)
          · rename_i m e
            obtain rfl : n = m := Option.some.inj (hd.symm.trans e)
            simp only [hk, if_true, hc]
        obtain ⟨ks, later, e, e1, e2, e3⟩ :=
          ih (State.respond { s with inputs := ms } (.payloadByte payload[k])) hd rfl hr
        refine ⟨k :: ks, later, ?_, by simp [e1], by simpa [hk] using e2, e3⟩
        simp only [serveReads, hrd, e]
        simp [State.respond, List.getD_eq_getElem?_getD, hkp]
      · refine ⟨[], .port (.pl k) :: ms, ?_, by simp, by simp, ?_⟩
        · have : serveReads (.port (.pl k) :: ms) s = s := by
            simp only [serveReads, readPayload, hd, hk, if_false]
          rw [this, ← hms, List.map_nil, List.append_nil]
        · intro k' rest e
          cases e
          omega
    · refine ⟨[], m :: ms, ?_, by simp, by simp, ?_⟩
      · have : serveReads (m :: ms) s = s := by
          unfold serveReads
          split
          · rename_i e
            simp only [List.cons.injEq] at e
            exact (hm ⟨_, e.1⟩).elim
          · rfl
        rw [this, ← hms, List.map_nil, List.append_nil]
      · intro k rest e
        cases e
        exact (hm ⟨_, rfl⟩).elim

/-- Whatever the state, the requests a delivery takes are payload reads, each answered with one byte (log 6). -/
theorem serveReads_taken (ms : List Move) (s : State) (hms : s.inputs = ms) :
    ∃ (ks : List Nat) (answers : List Byte),
      ms = (ks.map fun k => .port (.pl k)) ++ (serveReads ms s).inputs ∧
      (serveReads ms s).results = s.results ++ answers.map .payloadByte ∧ answers.length = ks.length := by
  induction ms generalizing s with
  | nil => exact ⟨[], [], by simp [serveReads, hms], by simp [serveReads], rfl⟩
  | cons m ms ih =>
    have stop (h : serveReads (m :: ms) s = s) :
        ∃ (ks : List Nat) (answers : List Byte),
          m :: ms = (ks.map fun k => .port (.pl k)) ++ (serveReads (m :: ms) s).inputs ∧
          (serveReads (m :: ms) s).results = s.results ++ answers.map .payloadByte ∧ answers.length = ks.length :=
      ⟨[], [], by simp [h, hms], by simp [h], rfl⟩
    by_cases hm : ∃ k, m = .port (.pl k)
    · obtain ⟨k, rfl⟩ := hm
      cases hr : readPayload k { s with inputs := ms } with
      | fault f => exact stop (by simp only [serveReads, hr])
      | refused r => exact stop (by simp only [serveReads, hr])
      | next u =>
        obtain ⟨n, b, -, -, -, rfl⟩ := readPayload_next hr
        obtain ⟨ks, answers, e1, e2, e3⟩ := ih (State.respond { s with inputs := ms } (.payloadByte b)) rfl
        refine ⟨k :: ks, b :: answers, ?_, ?_, by simp [e3]⟩
        · simp only [serveReads, hr, List.map_cons, List.cons_append]
          rw [← e1]
        · simp only [serveReads, hr]
          rw [e2]
          simp
    · refine stop ?_
      unfold serveReads
      split
      · rename_i e
        simp only [List.cons.injEq] at e
        exact (hm ⟨_, e.1⟩).elim
      · rfl

/-- A delivery appends one event, leaves the window closed, and otherwise touches only requests on port `pl` and responses
(R162, R66). -/
theorem deliver_frame (f : Candidate) (s : State) :
    deliver f s = { s with
      out := s.out ++ [.telegram f.type f.length f.payload], delivery := none
      inputs := (deliver f s).inputs, results := (deliver f s).results } := by
  rw [deliver, serveReads_frame]
  rfl

theorem deliver_sameRing (f : Candidate) (s : State) : SameRing s (deliver f s) := by
  rw [deliver_frame]
  exact ⟨rfl, rfl, rfl, rfl⟩

/-- What an operation guarded by its selection can do: it runs on the fetched bytes if the state selects it, and holds otherwise
(R18, R153). -/
theorem whenSelected_next {o : RxOutcome} {s t : State} {k : List Byte → Host.Outcome State Fault Refusal}
    (h : whenSelected o s k = .next t) :
    (∃ fs, rxFetch s = .ok fs ∧ decodeStream s.cfg s.sync fs = o ∧ k fs = .next t) ∨ t = s := by
  unfold whenSelected at h
  split at h
  · cases h
  · rename_i fs hf
    split_ifs at h with ho
    · exact .inl ⟨fs, hf, ho, h⟩
    · cases h
      exact .inr rfl

/-- What RX.STEP can do, as a function of the buffered bytes: the selected outcome runs, it answers, and the state it reaches is
the one its rule gives (R154 to R163). -/
theorem runOutcome_of_buffered {s : State} {bs : List Byte} (h : s.buffered = .ok bs) :
    rxOutcome s = .ok (decodeStream s.cfg s.sync bs) ∧
    runOutcome (decodeStream s.cfg s.sync bs) s = .next
      (match decodeStream s.cfg s.sync bs, parseCandidate bs with
        | .s1hit, _ => s.consume 1 .awaitSync2
        | .s1miss, _ => s.consume 1 .awaitSync1
        | .s2hit, _ => s.consume 1 .awaitHeader
        | .s2miss, _ => s.consume 1 .awaitSync1
        | .frameok, some f => (deliver f s).consume (frameSize f.length) .awaitSync1
        | .framebad, some f =>
          (s.raise (.ckFault f.type f.length f.recv (f.computed s.cfg.ckInit))).consume (frameSize f.length) .awaitSync1
        | _, _ => s) := by
  obtain ⟨fs, hf, hd, hp⟩ := rxFetch_of_buffered h
  refine ⟨by simp [rxOutcome, hf, hd], ?_⟩
  have header (ho : decodeStream s.cfg s.sync bs = .frameok ∨ decodeStream s.cfg s.sync bs = .framebad) :
      s.sync = .awaitHeader := by
    revert ho
    cases s.sync <;> cases bs <;> simp only [decodeStream] <;> (try split_ifs) <;> simp
  cases ho : decodeStream s.cfg s.sync bs <;> rw [ho] at hd <;>
    simp only [runOutcome, execRxStepS1hit, execRxStepS1miss, execRxStepS2hit, execRxStepS2miss, execRxStepStopempty,
      execRxStepHdrwait, execRxStepFrameok, execRxStepFramebad, whenSelected, hf, hd, if_true]
  · rw [hp (header (.inl ho))]
    cases parseCandidate bs <;> rfl
  · rw [hp (header (.inr ho))]
    cases parseCandidate bs <;> rfl

/-- What RX.WRITE can do when it answers: it was accepted and stored, or held (R151, R152). -/
theorem execRxWrite_next {v : List Byte} {s t : State} (h : execRxWrite v s = .next t) :
    v ≠ [] ∧
    ((v.length ≤ s.rxSpace ∧ v.length ≤ s.cfg.rxChunk ∧
        t = { s with buf := s.buf.writeBytes s.head v, head := s.wrap (s.head + v.length), accepted := s.accepted ++ v }) ∨ t = s) := by
  unfold execRxWrite at h
  split_ifs at h with h1 h2
  · refine ⟨by simpa using h1, .inl ⟨h2.1, h2.2, ?_⟩⟩
    split at h
    · cases h
    · rename_i s' hw
      cases h
      rw [(ringWrite_ok hw).2]
  · cases h
    exact ⟨by simpa using h1, .inr rfl⟩

/-- A write that fits is accepted (R151). -/
theorem execRxWrite_accepted {v : List Byte} {s : State} (h1 : 1 ≤ v.length) (h2 : v.length ≤ s.rxSpace)
    (h3 : v.length ≤ s.cfg.rxChunk) :
    execRxWrite v s =
      .next { s with buf := s.buf.writeBytes s.head v, head := s.wrap (s.head + v.length), accepted := s.accepted ++ v } := by
  have hne : v.isEmpty = false := by cases v <;> simp_all
  have hfit : s.head + v.length ≤ s.cfg.capacity := by
    have := Nat.le_trans h2 (Nat.min_le_right _ _)
    omega
  simp [execRxWrite, hne, h2, h3, ringWrite_of_fits hfit]

end Sys2Proof.Machine
end

