-- ==== Sys2Proof/Laws/Step.lean ====
section
/-! SUPPORT. What a step can do, said once: the fetch takes a request off the ports and nothing else, and a step is the decoded
operation; and what an RX.STEP leaves alone in any state. -/

namespace Sys2Proof.Machine

/-- The fetch changes only the list of moves (R166). -/
theorem fetch_ok {s s' : State} {e : Encoding} (h : fetch s = .ok (e, s')) : ∃ later, s' = { s with inputs := later } := by
  unfold fetch at h
  split at h
  · split at h <;> cases h
    exact ⟨s.inputs, rfl⟩
  · split at h <;> cases h
    exact ⟨_, rfl⟩
  · cases h
    exact ⟨_, rfl⟩

/-- A step that answers ran one decoded operation, on the state without the request it took. -/
theorem step_next {s t : State} (h : step s = .next t) :
    ∃ e later i, fetch s = .ok (e, { s with inputs := later }) ∧ decode s.cfg e = .ok i ∧
      exec i { s with inputs := later } = .next t := by
  unfold step at h
  split at h
  · cases h
  · rename_i e s' hf
    obtain ⟨later, rfl⟩ := fetch_ok hf
    split at h
    · cases h
    · rename_i i hd
      exact ⟨e, later, i, hf, hd, h⟩

/-- The operation an outcome is has that outcome's meaning (R153). -/
theorem exec_toInstr (o : RxOutcome) (s : State) : exec o.toInstr s = runOutcome o s := by
  cases o <;> rfl

/-- One round of RX.DRAIN (R165). -/
theorem drainLoop_succ {n : Nat} {s t : State} {o : RxOutcome} (ho : rxOutcome s = .ok o) (h : runOutcome o s = .next t) :
    drainLoop (n + 1) s = if o.isStop then .next t else drainLoop n t := by
  simp only [drainLoop, ho, h]

/-- Where RX.DRAIN answers, its first RX.STEP answered (R165). -/
theorem drainLoop_next {n : Nat} {s t : State} (h : drainLoop (n + 1) s = .next t) :
    ∃ o u, rxOutcome s = .ok o ∧ runOutcome o s = .next u ∧
      ((o.isStop = true ∧ t = u) ∨ (o.isStop = false ∧ drainLoop n u = .next t)) := by
  simp only [drainLoop] at h
  split at h
  · cases h
  · rename_i o ho
    split at h
    · rename_i u hu
      refine ⟨o, u, ho, hu, ?_⟩
      split_ifs at h with hs
      · cases h
        exact .inl ⟨hs, rfl⟩
      · exact .inr ⟨by simpa using hs, h⟩
    · cases h
    · cases h

/-- What TX.WRITE does when it answers: LINK's answer for the oldest frame, or the frame waits (R135, R136). -/
theorem execTxWrite_next {frame : List Byte} {answer : LinkAnswer} {s t : State} (h : execTxWrite frame answer s = .next t) :
    (∃ later, s.handed = frame :: later ∧
      ((answer = .success ∧ t = { s with handed := later, sent := s.sent ++ [frame] }) ∨
        (answer = .failure ∧ t = State.raise { s with handed := later } .ioWriteFault))) ∨
    (frame ∈ s.handed ∧ t = s) := by
  unfold execTxWrite at h
  split at h
  · cases h
  · rename_i oldest later hs
    split_ifs at h with h1 h2
    · subst h1
      refine .inl ⟨later, hs, ?_⟩
      split at h <;> cases h
      · exact .inl ⟨rfl, rfl⟩
      · exact .inr ⟨rfl, rfl⟩
    · cases h
      exact .inr ⟨by simp [hs, h2], rfl⟩

/-- What PROD's part of a round of RX.FEED does when it answers: nothing where there is no room (log 12), or an RX.WRITE (R99). -/
theorem feedWrite_next {v : List Byte} {s t : State} (h : feedWrite v s = .next t) :
    (v = [] ∧ t = s) ∨ (v ≠ [] ∧ execRxWrite v s = .next t) := by
  unfold feedWrite at h
  split_ifs at h with hv
  · cases h
    exact .inl ⟨by simpa using hv, rfl⟩
  · exact .inr ⟨by simpa using hv, h⟩

/-- One round of RX.FEED, with bytes remaining (R99). -/
theorem feedRounds_succ {n : Nat} {v : List Byte} {s s1 s2 : State} (hv : v ≠ [])
    (h1 : feedWrite (v.take (s.feedSize v.length)) s = .next s1) (h2 : execRxDrain s1 = .next s2) :
    feedRounds (n + 1) v s = feedRounds n (v.drop (s.feedSize v.length)) s2 := by
  have hv' : v.isEmpty = false := by simpa using hv
  simp only [feedRounds, hv', Bool.false_eq_true, if_false, h1, h2]

/-- What an RX.STEP leaves alone, in any state (R27): everything but `tail`, `state`, `OUT` and, in a delivery, the requests and
responses of the HOST. -/
theorem runOutcome_frame {o : RxOutcome} {s t : State} (h : runOutcome o s = .next t) :
    t.cfg = s.cfg ∧ t.buf = s.buf ∧ t.head = s.head ∧ t.handed = s.handed ∧ t.sent = s.sent ∧ t.accepted = s.accepted ∧
      (t.delivery = s.delivery ∨ t.delivery = none) := by
  cases o <;>
    simp only [runOutcome, execRxStepS1hit, execRxStepS1miss, execRxStepS2hit, execRxStepS2miss, execRxStepStopempty,
      execRxStepHdrwait, execRxStepFrameok, execRxStepFramebad] at h <;>
    rcases whenSelected_next h with ⟨fs, -, -, h⟩ | rfl <;>
    try exact ⟨rfl, rfl, rfl, rfl, rfl, rfl, .inl rfl⟩
  iterate 6 (cases h; exact ⟨rfl, rfl, rfl, rfl, rfl, rfl, .inl rfl⟩)
  · split at h <;> cases h
    · exact ⟨rfl, rfl, rfl, rfl, rfl, rfl, .inl rfl⟩
    · rw [deliver_frame]
      exact ⟨rfl, rfl, rfl, rfl, rfl, rfl, .inr rfl⟩
  · split at h <;> cases h <;> exact ⟨rfl, rfl, rfl, rfl, rfl, rfl, .inl rfl⟩

/-- What an RX.STEP takes of the requests and answers, in any state: payload reads only, each with one byte (log 6). -/
theorem runOutcome_requests {o : RxOutcome} {s t : State} (h : runOutcome o s = .next t) :
    ∃ (ks : List Nat) (answers : List Byte), s.inputs = (ks.map fun k => .port (.pl k)) ++ t.inputs ∧
      t.results = s.results ++ answers.map .payloadByte ∧ answers.length = ks.length := by
  cases o <;>
    simp only [runOutcome, execRxStepS1hit, execRxStepS1miss, execRxStepS2hit, execRxStepS2miss, execRxStepStopempty,
      execRxStepHdrwait, execRxStepFrameok, execRxStepFramebad] at h <;>
    rcases whenSelected_next h with ⟨fs, -, -, h⟩ | rfl <;>
    try exact ⟨[], [], rfl, (List.append_nil _).symm, rfl⟩
  iterate 6 (cases h; exact ⟨[], [], rfl, (List.append_nil _).symm, rfl⟩)
  · split at h <;> cases h
    · exact ⟨[], [], rfl, (List.append_nil _).symm, rfl⟩
    · rename_i f _
      exact serveReads_taken s.inputs (openDelivery f s) rfl
  · split at h <;> cases h <;> exact ⟨[], [], rfl, (List.append_nil _).symm, rfl⟩

end Sys2Proof.Machine
end

