-- ==== Sys2Proof/Laws/Stream.lean ====
section
/-! SUPPORT. The stream semantics of R170 beside the decoder: how `parse` and one RX.STEP go through the buffered bytes. -/

namespace Sys2Proof.Machine

/-- What an outcome consumes of the buffered bytes, the events it appends and the sync state it leaves (R154 to R163); a
*stop* consumes nothing. -/
def advance (init : CkInit) (o : RxOutcome) (bs : List Byte) : Nat × List Event × SyncState :=
  match o, parseCandidate bs with
  | .s1hit, _ => (1, [], .awaitSync2)
  | .s1miss, _ => (1, [], .awaitSync1)
  | .s2hit, _ => (1, [], .awaitHeader)
  | .s2miss, _ => (1, [], .awaitSync1)
  | .frameok, some f => (frameSize f.length, [.telegram f.type f.length f.payload], .awaitSync1)
  | .framebad, some f => (frameSize f.length, [.ckFault f.type f.length f.recv (f.computed init)], .awaitSync1)
  | _, _ => (0, [], .awaitSync1)

/-- One round of `parse` follows the decoder: a *stop* ends it, any other outcome consumes what `advance` says (R170). -/
theorem parseFrom_step (c : Config) (n : Nat) (st : SyncState) (bs : List Byte) :
   let o := decodeStream c st bs
   (o.isStop = true → parseFrom c.ckInit (n+1) st bs = ⟨[], st, bs⟩) ∧
   (o.isStop = false → 1 ≤ (advance c.ckInit o bs).1 ∧ (advance c.ckInit o bs).1 ≤ bs.length ∧
     parseFrom c.ckInit (n+1) st bs =
     let p := parseFrom c.ckInit n (advance c.ckInit o bs).2.2 (bs.drop (advance c.ckInit o bs).1)
     ⟨(advance c.ckInit o bs).2.1 ++ p.events, p.sync, p.residue⟩) := by
  cases st with
  | awaitSync1 =>
    cases bs with
    | nil => simp [decodeStream, RxOutcome.isStop, parseFrom]
    | cons b bs =>
      by_cases h : b = syncByte
      · simp [decodeStream, h, RxOutcome.isStop, parseFrom, advance, syncByte]
      · have h2 := h; simp only [syncByte] at h2
        simp [decodeStream, h, RxOutcome.isStop, parseFrom, advance]
        simp at h2; simp [h2]
  | awaitSync2 =>
    cases bs with
    | nil => simp [decodeStream, RxOutcome.isStop, parseFrom]
    | cons b bs =>
      by_cases h : b = syncByte
      · simp [decodeStream, h, RxOutcome.isStop, parseFrom, advance, syncByte]
      · have h2 := h; simp only [syncByte] at h2
        simp [decodeStream, h, RxOutcome.isStop, parseFrom, advance]
        simp at h2; simp [h2]
  | awaitHeader =>
    cases hc : parseCandidate bs with
    | none =>
      simp only [decodeStream, hc, RxOutcome.isStop]
      refine ⟨fun _ => ?_, by simp⟩
      match bs, hc with
      | [], _ => rfl
      | [_], _ => rfl
      | t :: l :: r, hc =>
        have := (parseCandidate_eq_none_iff _).1 hc t l r rfl
        simp [parseFrom, this]
    | some f =>
      obtain ⟨hi, lo, extra, rfl, hl, hr⟩ := (parseCandidate_eq_some_iff _ _).1 hc
      have hlen := parseCandidate_length hc
      have e1 : ¬ ((f.payload ++ hi :: lo :: extra).length < f.length.toNat + 2) := by simp [← hl]
      have e2 : (f.payload ++ hi :: lo :: extra).take f.length.toNat = f.payload := by simp [← hl]
      have e3 : (f.payload ++ hi :: lo :: extra).getD f.length.toNat 0 = hi := by simp [← hl]
      have e4 : (f.payload ++ hi :: lo :: extra).getD (f.length.toNat + 1) 0 = lo := by simp [← hl]
      have e5 : f.computed c.ckInit = f16 c.ckInit (f.type :: f.length :: f.payload) := rfl
      by_cases hq : f.computed c.ckInit = f.recv
      · have hq' := hq
        rw [e5, hr] at hq'
        simp only [decodeStream, hc, hq, if_true, RxOutcome.isStop, advance]
        refine ⟨by simp, fun _ => ⟨by simp [frameSize], hlen, ?_⟩⟩
        simp only [parseFrom, e1, if_false, e2, e3, e4, hq', if_true]
        simp [frameSize]
      · have hq' := hq
        rw [e5, hr] at hq'
        simp only [decodeStream, hc, hq, if_false, RxOutcome.isStop, advance]
        refine ⟨by simp, fun _ => ⟨by simp [frameSize], hlen, ?_⟩⟩
        simp only [parseFrom, e1, if_false, e2, e3, e4, hq']
        simp [frameSize, e5, hr]

/-- Enough fuel is enough. -/
theorem parseFrom_fuel (c : Config) (n m : Nat) (st : SyncState) (bs : List Byte) (h : bs.length < n)
    (h' : bs.length < m) :
   parseFrom c.ckInit n st bs = parseFrom c.ckInit m st bs := by
  induction n generalizing m st bs with
  | zero => omega
  | succ n ih =>
    cases m with
    | zero => omega
    | succ m =>
      cases ho : (decodeStream c st bs).isStop with
      | true => rw [(parseFrom_step c n st bs).1 ho, (parseFrom_step c m st bs).1 ho]
      | false =>
        obtain ⟨a1, a2, a3⟩ := (parseFrom_step c n st bs).2 ho
        obtain ⟨_, _, b3⟩ := (parseFrom_step c m st bs).2 ho
        rw [a3, b3]
        dsimp only
        rw [ih m _ _ (by simp; omega) (by simp; omega)]

/-- `parse` ends where the decoder stops (R170). -/
theorem parse_stop (c : Config) (st : SyncState) (bs : List Byte) (ho : (decodeStream c st bs).isStop = true) :
   parse c.ckInit st bs = ⟨[], st, bs⟩ := (parseFrom_step c _ st bs).1 ho

/-- `parse` goes on behind what an outcome consumes (R170). -/
theorem parse_go (c : Config) (st : SyncState) (bs : List Byte) (ho : (decodeStream c st bs).isStop = false) :
   let a := advance c.ckInit (decodeStream c st bs) bs
   1 ≤ a.1 ∧ a.1 ≤ bs.length ∧
   let p := parse c.ckInit a.2.2 (bs.drop a.1)
   parse c.ckInit st bs = ⟨a.2.1 ++ p.events, p.sync, p.residue⟩ := by
  obtain ⟨a1, a2, a3⟩ := (parseFrom_step c bs.length st bs).2 ho
  refine ⟨a1, a2, ?_⟩
  show parseFrom c.ckInit (bs.length + 1) st bs = _
  rw [a3, parseFrom_fuel c bs.length ((bs.drop (advance c.ckInit (decodeStream c st bs) bs).1).length + 1) _ _
    (by simp; omega) (by simp)]
  rfl

/-- An outcome that consumes is not changed by bytes that arrive behind (R155, R171). -/
theorem decodeStream_append (c : Config) (st : SyncState) (bs ex : List Byte)
    (ho : (decodeStream c st bs).isStop = false) :
    decodeStream c st (bs ++ ex) = decodeStream c st bs ∧
    advance c.ckInit (decodeStream c st bs) (bs ++ ex) = advance c.ckInit (decodeStream c st bs) bs := by
  cases st with
  | awaitSync1 =>
    cases bs with
    | nil => simp [decodeStream, RxOutcome.isStop] at ho
    | cons b bs => by_cases h : b = syncByte <;> simp [decodeStream, h, advance]
  | awaitSync2 =>
    cases bs with
    | nil => simp [decodeStream, RxOutcome.isStop] at ho
    | cons b bs => by_cases h : b = syncByte <;> simp [decodeStream, h, advance]
  | awaitHeader =>
    cases hc : parseCandidate bs with
    | none => simp [decodeStream, hc, RxOutcome.isStop] at ho
    | some f =>
      have : parseCandidate (bs ++ ex) = some f := by
        obtain ⟨hi, lo, extra, rfl, hl, hr⟩ := (parseCandidate_eq_some_iff _ _).1 hc
        exact (parseCandidate_eq_some_iff _ _).2 ⟨hi, lo, extra ++ ex, by simp, hl, hr⟩
      by_cases h : f.computed c.ckInit = f.recv <;> simp [decodeStream, hc, this, advance, h]

/-- `parse` may be cut anywhere: it goes on from the sync state and the residue of the first part (R170). -/
theorem parse_append (c : Config) (st : SyncState) (bs ex : List Byte) :
    let p := parse c.ckInit st bs
    let q := parse c.ckInit p.sync (p.residue ++ ex)
    parse c.ckInit st (bs ++ ex) = ⟨p.events ++ q.events, q.sync, q.residue⟩ := by
  generalize hm : bs.length + 1 = n
  have hn : bs.length < n := by omega
  clear hm
  induction n generalizing st bs with
  | zero => omega
  | succ n ih =>
    cases ho : (decodeStream c st bs).isStop with
    | true => simp [parse_stop c st bs ho]
    | false =>
      have hg := parse_go c st bs ho
      dsimp only at hg
      obtain ⟨g1, g2, g3⟩ := hg
      obtain ⟨d1, d2⟩ := decodeStream_append c st bs ex ho
      have hg' := parse_go c st (bs ++ ex) (by rw [d1]; exact ho)
      dsimp only at hg'
      rw [d1, d2, List.drop_append_of_le_length g2] at hg'
      have := ih (advance c.ckInit (decodeStream c st bs) bs).2.2
        (bs.drop (advance c.ckInit (decodeStream c st bs) bs).1) (by simp; omega)
      dsimp only at this ⊢
      rw [hg'.2.2, this, g3]
      simp

/-- One RX.STEP, in the terms of `advance` (R153, R164). -/
theorem rxStep_of_buffered {s : State} {bs : List Byte} (hi : Inv s) (h : s.buffered = .ok bs) :
  let o := decodeStream s.cfg s.sync bs
  rxOutcome s = .ok o ∧
  (o.isStop = true → runOutcome o s = .next s) ∧
  (o.isStop = false → ∃ t, runOutcome o s = .next t ∧ Inv t ∧
    t.buffered = .ok (bs.drop (advance s.cfg.ckInit o bs).1) ∧
    t.out = s.out ++ (advance s.cfg.ckInit o bs).2.1 ∧ t.sync = (advance s.cfg.ckInit o bs).2.2 ∧
    t.cfg = s.cfg ∧ t.head = s.head ∧ t.buf = s.buf ∧ t.handed = s.handed ∧ t.sent = s.sent ∧
    t.fill = s.fill - (advance s.cfg.ckInit o bs).1 ∧
    t.tail = (s.tail + (advance s.cfg.ckInit o bs).1) % s.cfg.capacity) := by
  obtain ⟨h1, h2⟩ := runOutcome_of_buffered h
  have hl := buffered_length h
  refine ⟨h1, ?_, ?_⟩
  · intro ho
    rw [h2]
    revert ho
    cases decodeStream s.cfg s.sync bs <;> simp [RxOutcome.isStop]
  · intro ho
    have hg := parse_go s.cfg s.sync bs ho
    dsimp only at hg
    obtain ⟨g1, g2, -⟩ := hg
    refine ⟨_, h2, ?_⟩
    have key : ∀ (u : State) (n : Nat) (st : SyncState), SameRing s u → u.delivery = none → u.handed = s.handed →
        u.sent = s.sent → n ≤ bs.length →
        Inv (u.consume n st) ∧ (u.consume n st).buffered = .ok (bs.drop n) ∧ (u.consume n st).cfg = s.cfg ∧
        (u.consume n st).head = s.head ∧ (u.consume n st).buf = s.buf ∧ (u.consume n st).handed = s.handed ∧
        (u.consume n st).sent = s.sent ∧ (u.consume n st).fill = s.fill - n ∧
        (u.consume n st).tail = (s.tail + n) % s.cfg.capacity := by
      intro u n st e ed e1 e2 hn
      have hu := hi.of_sameRing e ed
      have hf : n ≤ u.fill := by rw [e.fill]; omega
      refine ⟨hu.consume hf st, buffered_consume hu.headInRing hu.tailInRing (by rw [e.buffered]; exact h) hf st,
        e.cfg, e.head, e.buf, e1, e2, ?_, ?_⟩
      · rw [fill_consume hu.headInRing hu.tailInRing hf, e.fill]
      · show u.wrap (u.tail + n) = _
        rw [e.wrap, e.tail]; rfl
    cases ho' : decodeStream s.cfg s.sync bs <;> rw [ho'] at g1 g2 ho <;> simp only [RxOutcome.isStop] at ho <;>
      try cases ho
    · have := key s 1 .awaitSync2 (SameRing.refl s) hi.noDelivery rfl rfl (by simpa [advance] using g2)
      simp_all [advance]
    · have := key s 1 .awaitSync1 (SameRing.refl s) hi.noDelivery rfl rfl (by simpa [advance] using g2)
      simp_all [advance]
    · have := key s 1 .awaitHeader (SameRing.refl s) hi.noDelivery rfl rfl (by simpa [advance] using g2)
      simp_all [advance]
    · have := key s 1 .awaitSync1 (SameRing.refl s) hi.noDelivery rfl rfl (by simpa [advance] using g2)
      simp_all [advance]
    · cases hc : parseCandidate bs with
      | none => simp [advance, hc] at g1
      | some f =>
        simp only [advance, hc] at g2
        have hd := deliver_frame f s
        have := key (deliver f s) (frameSize f.length) .awaitSync1 (deliver_sameRing f s) (by rw [hd]) (by rw [hd])
          (by rw [hd]) g2
        have h5 : ((deliver f s).consume (frameSize f.length) SyncState.awaitSync1).out =
            s.out ++ [.telegram f.type f.length f.payload] := by
          show (deliver f s).out = _
          rw [hd]
        obtain ⟨k1, k2, k3, k4, k5, k6, k7, k8, k9⟩ := this
        simp only [advance, hc]
        exact ⟨k1, k2, h5, rfl, k3, k4, k5, k6, k7, k8, k9⟩
    · cases hc : parseCandidate bs with
      | none => simp [advance, hc] at g1
      | some f =>
        simp only [advance, hc] at g2
        have := key (s.raise (.ckFault f.type f.length f.recv (f.computed s.cfg.ckInit))) (frameSize f.length)
          .awaitSync1 (sameRing_raise _ _) hi.noDelivery rfl rfl g2
        simp_all [advance]

end Sys2Proof.Machine
end

