-- ==== Sys2Proof/Tests/Slice0.lean ====
section
/-! SUPPORT. The model's own tests: ill-formed terms are refused, written-out bytes decode, one step of each operation on the
vectors of spec/95_test_vectors.md (cited by their ids), and for every obligation with hypotheses a witness that meets them. -/

namespace Sys2Proof.Tests

open Sys2Proof Sys2Proof.Machine

/-! ### Helpers -/

/-- The built block with another capacity. -/
def ring (capacity : Nat) : Config := { Config.flxd with capacity := capacity }

/-- A block that holds `bytes` from `tail` on, in the sync state given; `tail + bytes.length <= C`. -/
def holding (c : Config) (sync : SyncState) (tail : Nat) (bytes : List Byte) : State :=
  { State.reset with
    cfg := c, sync := sync, tail := tail, head := (tail + bytes.length) % c.capacity
    buf := Memory.writeBytes [] tail bytes }

/-- The next state, if there is one. -/
def next? : Host.Outcome State Fault Refusal → Option State
  | .next s => some s
  | .fault _ => none
  | .refused _ => none

/-- The refusal, if there is one. -/
def refusal? : Host.Outcome State Fault Refusal → Option Refusal
  | .next _ => none
  | .fault _ => none
  | .refused r => some r

/-- The indices, the sync state and the events after an operation. -/
def record? (o : Host.Outcome State Fault Refusal) : Option (SyncState × Nat × Nat × List Event) :=
  (next? o).map fun s => (s.sync, s.head, s.tail, s.out)

/-- The responses after an operation. -/
def answer? (o : Host.Outcome State Fault Refusal) : Option (List Result) := (next? o).map State.results

/-! ### WellFormed refuses an ill-formed term of each check -/

theorem test_illFormed_txEncode :
    WellFormed { ring 1024 with maxFrame := 16 } (.txEncode 0x07 (List.replicate 11 0)) = false := by decide
theorem test_illFormed_txEncodeToolarge : WellFormed (ring 1024) (.txEncodeToolarge 0x07 255) = false := by decide
theorem test_illFormed_txWrite_checkByte :
    WellFormed (ring 1024) (.txWrite [0xAA, 0xAA, 0x03, 0x02, 0x12, 0x34, 0x6A, 0x4C] .success) = false := by decide
theorem test_illFormed_txWrite_short : WellFormed (ring 1024) (.txWrite [0xAA, 0xAA, 0x03] .success) = false := by decide
theorem test_illFormed_txWrite_maxPayload :
    WellFormed { ring 1024 with maxFrame := 7 } (.txWrite [0xAA, 0xAA, 0x03, 0x02, 0x12, 0x34, 0x6A, 0x4B] .success) = false := by
  decide
theorem test_illFormed_rxWrite_empty : WellFormed (ring 16) (.rxWrite []) = false := by decide
theorem test_illFormed_rxWrite_chunk :
    WellFormed { ring 16 with rxChunk := 2 } (.rxWrite [1, 2, 3]) = false := by decide
theorem test_illFormed_rxWrite_capacity : WellFormed (ring 16) (.rxWrite (List.replicate 16 0)) = false := by decide
theorem test_illFormed_plRead : WellFormed (ring 16) (.plRead 255) = false := by decide
theorem test_illFormed_fxMilli_narrow : WellFormed (ring 16) (.fxMilli 2 0) = false := by decide
theorem test_illFormed_fxMilli_wide : WellFormed (ring 16) (.fxMilli 33 0) = false := by decide
theorem test_illFormed_fxMilli_fraction : WellFormed (ring 16) (.fxMilli 11 2048) = false := by decide
theorem test_illFormed_fxDigits3 : WellFormed (ring 16) (.fxDigits3 1000) = false := by decide
theorem test_wellFormed_frame :
    WellFormed (ring 1024) (.txWrite [0xAA, 0xAA, 0x03, 0x02, 0x12, 0x34, 0x6A, 0x4B] .failure) = true := by decide

/-! ### Decoding of written-out bytes (R80, R95) and of the ports' requests (R94) -/

theorem test_decode_s1hit : decode (ring 1024) (.stream .awaitSync1 [0b10101010]) = .ok .rxStepS1hit := by decide
theorem test_decode_s1miss : decode (ring 1024) (.stream .awaitSync1 [0b10101011]) = .ok .rxStepS1miss := by decide
theorem test_decode_s2hit : decode (ring 1024) (.stream .awaitSync2 [0b10101010]) = .ok .rxStepS2hit := by decide
theorem test_decode_s2miss : decode (ring 1024) (.stream .awaitSync2 [0b01010101]) = .ok .rxStepS2miss := by decide
theorem test_decode_stopempty : decode (ring 1024) (.stream .awaitSync2 []) = .ok .rxStepStopempty := by decide
/-- Q8: three bytes are no header. -/
theorem test_decode_hdrwait_header : decode (ring 1024) (.stream .awaitHeader [0x01, 0x00, 0x02]) = .ok .rxStepHdrwait := by decide
/-- Q15: the length byte asks for one byte more. -/
theorem test_decode_hdrwait_frame :
    decode (ring 1024) (.stream .awaitHeader [0x03, 0x03, 0x12, 0x34, 0x6A, 0x4B]) = .ok .rxStepHdrwait := by decide
/-- Q13: the byte behind the frame does not matter. -/
theorem test_decode_frameok :
    decode (ring 1024) (.stream .awaitHeader [0x03, 0x02, 0x12, 0x34, 0x6A, 0x4B, 0x77]) = .ok .rxStepFrameok := by decide
/-- Q11. -/
theorem test_decode_framebad :
    decode (ring 1024) (.stream .awaitHeader [0x03, 0x02, 0x13, 0x34, 0x6A, 0x4B]) = .ok .rxStepFramebad := by decide
/-- T5. -/
theorem test_decode_txEncode :
    decode (ring 1024) (.frame [0xAA, 0xAA, 0x05, 0x04, 0x00, 0x00, 0x80, 0x00, 0x33, 0x89]) =
      .ok (.txEncode 0x05 [0x00, 0x00, 0x80, 0x00]) := by decide
theorem test_decode_frame_noMarker :
    decode (ring 1024) (.frame [0xAA, 0xAB, 0x01, 0x00, 0x02, 0x01]) = .error .noMarker := by decide
theorem test_decode_frame_length :
    decode (ring 1024) (.frame [0xAA, 0xAA, 0x01, 0x01, 0x02, 0x01]) = .error .frameLength := by decide
/-- T13: with `MAX_FRAME = 16` a payload of 11 bytes is too large. -/
theorem test_decode_toolarge :
    decode { ring 1024 with maxFrame := 16 } (.port (.enc 0x07 (List.replicate 11 0))) = .ok (.txEncodeToolarge 0x07 11) := by
  decide
theorem test_decode_emptyWrite : decode (ring 1024) (.port (.rx [])) = .error .emptyWrite := by decide

/-- The bits of the rows that have some, as the table numbers them; the frame's second word is in the high bits. -/
theorem test_tableWord_s1hit : decodeTableWord 8 0b10101010 = some .rxStepS1hit := by decide
theorem test_tableWord_s1miss : decodeTableWord 8 0b00000000 = some .rxStepS1miss := by decide
theorem test_tableWord_txEncode : decodeTableWord 32 0x0302AAAA = some (.txEncode 0x03 [0x00, 0x00]) := by decide
theorem test_tableWord_header : decodeTableWord 16 0x0302 = some .rxStepFramebad := by decide
theorem test_tableWord_runs :
    (next? (step (State.reset.withFetchWord 8 0xAA))).map (fun s => (s.sync, s.tail)) = some (.awaitSync2, 1) := by decide
/-- `AA AA 00 00`: TX.ENCODE of type 0 with no payload (T1). -/
theorem test_tableWord_runs_txEncode :
    (next? (step (State.reset.withFetchWord 32 0x0000AAAA))).map State.out =
      some [.txFrame [0xAA, 0xAA, 0x00, 0x00, 0xFF, 0xFF]] := by decide

/-! ### One step of each operation -/

/-- Q2. -/
theorem test_s1hit : record? (step (holding (ring 1024) .awaitSync1 0 [0xAA])) = some (.awaitSync2, 1, 1, []) := by decide
/-- The marker in the last cell: `tail` wraps (R51). -/
theorem test_s1hit_wraps : record? (step (holding (ring 16) .awaitSync1 15 [0xAA])) = some (.awaitSync2, 0, 0, []) := by decide
/-- Q3. -/
theorem test_s1miss : record? (step (holding (ring 1024) .awaitSync1 0 [0x00])) = some (.awaitSync1, 1, 1, []) := by decide
/-- Q4. -/
theorem test_s2hit : record? (step (holding (ring 1024) .awaitSync2 1 [0xAA])) = some (.awaitHeader, 2, 2, []) := by decide
/-- Q5. -/
theorem test_s2miss : record? (step (holding (ring 1024) .awaitSync2 1 [0x55])) = some (.awaitSync1, 2, 2, []) := by decide
/-- Q1. -/
theorem test_stopempty : record? (step (holding (ring 1024) .awaitSync1 5 [])) = some (.awaitSync1, 5, 5, []) := by decide
/-- Q6: the second half of a marker pair is waited for. -/
theorem test_stopempty_sync2 : record? (step (holding (ring 1024) .awaitSync2 1 [])) = some (.awaitSync2, 1, 1, []) := by decide
/-- Q9. -/
theorem test_hdrwait :
    record? (step (holding (ring 1024) .awaitHeader 2 [0x03, 0x02, 0x12, 0x34, 0x6A])) = some (.awaitHeader, 7, 2, []) := by
  decide
/-- Q14. -/
theorem test_hdrwait_longest :
    record? (step (holding (ring 1024) .awaitHeader 2 [0x03, 0xFF, 0x12, 0x34, 0x6A, 0x4B])) =
      some (.awaitHeader, 8, 2, []) := by decide
/-- Q13. -/
theorem test_frameok :
    record? (step (holding (ring 1024) .awaitHeader 2 [0x03, 0x02, 0x12, 0x34, 0x6A, 0x4B, 0x77])) =
      some (.awaitSync1, 9, 8, [.telegram 0x03 0x02 [0x12, 0x34]]) := by decide
/-- Program P2, line 11: the candidate wraps around the ring's end. -/
theorem test_frameok_wraps :
    record? (step { holding (ring 16) .awaitHeader 11 [0x02, 0x03, 0xAA, 0x55, 0xAA] with
      head := 2
      buf := Memory.writeBytes (Memory.writeBytes [] 11 [0x02, 0x03, 0xAA, 0x55, 0xAA]) 0 [0x6B, 0xAF] }) =
      some (.awaitSync1, 2, 2, [.telegram 0x02 0x03 [0xAA, 0x55, 0xAA]]) := by decide
/-- Q11. -/
theorem test_framebad :
    record? (step (holding (ring 1024) .awaitHeader 2 [0x03, 0x02, 0x13, 0x34, 0x6A, 0x4B])) =
      some (.awaitSync1, 8, 8, [.ckFault 0x03 0x02 0x6A4B 0x6C4C]) := by decide
/-- K6: a change between 00 and FF is not detected (R271). -/
theorem test_framebad_blindSpot :
    record? (step (holding (ring 1024) .awaitHeader 2 [0x05, 0x04, 0xFF, 0x00, 0x80, 0x00, 0x33, 0x89])) =
      some (.awaitSync1, 10, 10, [.telegram 0x05 0x04 [0xFF, 0x00, 0x80, 0x00]]) := by decide
/-- P1, step 5: payload bytes read inside the delivery, in the order asked; the read past the payload is left standing. -/
theorem test_plRead_inDelivery :
    (next? (step { holding (ring 1024) .awaitHeader 3 [0x03, 0x02, 0x12, 0x34, 0x6A, 0x4B] with
      inputs := [.frm, .port (.pl 1), .port (.pl 0), .port (.pl 2)] })).map (fun s => (s.results, s.inputs, s.tail)) =
      some ([.payloadByte 0x34, .payloadByte 0x12], [.port (.pl 2)], 9) := by decide
theorem test_plRead_outside :
    refusal? (step { State.reset with inputs := [.port (.pl 0)] }) = some .windowClosed := by decide
/-- T3. -/
theorem test_txEncode :
    (next? (exec (.txEncode 0x03 [0x12, 0x34]) State.reset)).map (fun s => (s.out, s.handed)) =
      some ([.txFrame [0xAA, 0xAA, 0x03, 0x02, 0x12, 0x34, 0x6A, 0x4B]], [[0xAA, 0xAA, 0x03, 0x02, 0x12, 0x34, 0x6A, 0x4B]]) := by
  decide
/-- T4: marker bytes are not escaped. -/
theorem test_txEncode_markers :
    (next? (exec (.txEncode 0xAA [0xAA, 0xAA]) State.reset)).map State.handed =
      some [[0xAA, 0xAA, 0xAA, 0x02, 0xAA, 0xAA, 0xB0, 0x02]] := by decide
/-- T11. -/
theorem test_txEncodeToolarge :
    (next? (exec (.txEncodeToolarge 0x07 256) State.reset)).map (fun s => (s.out, s.handed)) =
      some ([.encodeFault 0x07 256], []) := by decide
/-- T13, on TX.ENCODE itself. -/
theorem test_txEncode_toolarge :
    (next? (exec (.txEncode 0x07 (List.replicate 11 0)) { State.reset with cfg := { ring 1024 with maxFrame := 16 } })).map
      (fun s => (s.out, s.handed)) = some ([.encodeFault 0x07 11], []) := by decide
/-- R136: the oldest frame leaves first. -/
theorem test_txWrite_success :
    (next? (exec (.txWrite [1] .success) { State.reset with handed := [[1], [2]] })).map (fun s => (s.handed, s.sent, s.out)) =
      some ([[2]], [[1]], []) := by decide
theorem test_txWrite_failure :
    (next? (exec (.txWrite [1] .failure) { State.reset with handed := [[1], [2]] })).map (fun s => (s.handed, s.sent, s.out)) =
      some ([[2]], [], [.ioWriteFault]) := by decide
/-- F10. -/
theorem test_ckF16 : answer? (exec (.ckF16 [0x03, 0x02, 0x12, 0x34]) State.reset) = some [.f16 0x6A4B] := by decide
/-- F15: one byte more than a block. -/
theorem test_ckF16_twoBlocks : answer? (exec (.ckF16 (List.replicate 21 0xFF)) State.reset) = some [.f16 0xFFFF] := by decide
/-- R151's example: a write up to the ring's end leaves `head = 0`. -/
theorem test_rxWrite :
    (next? (exec (.rxWrite [0xAA, 0xAA, 0x02, 0x03, 0xAA, 0x55, 0xAA]) (holding (ring 16) .awaitSync1 9 []))).map
      (fun s => (s.head, s.fill, s.buf.read 9, s.buf.read 12, s.buf.read 15)) = some (0, 7, some 0xAA, some 0x03, some 0xAA) := by
  decide
/-- P6, line 2: a full ring holds PROD. -/
theorem test_rxWrite_holds :
    record? (exec (.rxWrite [0x00]) { holding (ring 16) .awaitSync1 0 [] with head := 15 }) =
      some (.awaitSync1, 15, 0, []) := by decide
/-- P3, lines 2 to 8, as one RX.DRAIN. -/
theorem test_rxDrain :
    record? (exec .rxDrain (holding (ring 1024) .awaitSync1 0
      [0xAA, 0xAA, 0x03, 0x02, 0x13, 0x34, 0x6A, 0x4B, 0xAA, 0xAA, 0x01, 0x00, 0x02, 0x01])) =
      some (.awaitSync1, 14, 14, [.ckFault 0x03 0x02 0x6A4B 0x6C4C, .telegram 0x01 0x00 []]) := by decide
/-- K7. -/
theorem test_rxDrain_lostFrame :
    record? (exec .rxDrain (holding (ring 1024) .awaitSync1 0 [0xAA, 0x2A, 0x03, 0x02, 0x12, 0x34, 0x6A, 0x4B])) =
      some (.awaitSync1, 8, 8, []) := by decide
/-- X1, X3. -/
theorem test_fxBe16 : answer? (exec (.fxBe16 0x80 0x00) State.reset) = some [.be16 0x8000] := by decide
theorem test_fxBe32 : answer? (exec (.fxBe32 0x00 0x01 0xE2 0x40) State.reset) = some [.be32 0x0001E240] := by decide
/-- X5, X6. -/
theorem test_fxMilli : answer? (exec (.fxMilli 16 0x8000) State.reset) = some [.milli 500] := by decide
theorem test_fxMilli_top : answer? (exec (.fxMilli 11 0x7FF) State.reset) = some [.milli 999] := by decide
/-- X10, X11. -/
theorem test_fxGauge : answer? (exec (.fxGauge 0x0001E240) State.reset) = some [.gauge 60 281] := by decide
theorem test_fxGauge_negative : answer? (exec (.fxGauge 0xFFFFFC00) State.reset) = some [.gauge (-1) 500] := by decide
/-- X16. -/
theorem test_fxCounter :
    answer? (exec (.fxCounter 0xFFFFFFFF 0xFFFF) State.reset) = some [.counter 4294967295 999] := by decide
/-- X23. -/
theorem test_fxDigits3 : answer? (exec (.fxDigits3 62) State.reset) = some [.digits3 0 6 2] := by decide
theorem test_fxDigits3_domain : refusal? (exec (.fxDigits3 1000) State.reset) = some (.digitsRange 1000) := by decide
/-- X17, both settings of `ROUND_NEG`. -/
theorem test_fxRound11_subHalf : answer? (exec (.fxRound11 0xFFFF1800) State.reset) = some [.round11 (-30)] := by decide
theorem test_fxRound11_addHalf :
    answer? (exec (.fxRound11 0xFFFF1800) { State.reset with cfg := { ring 1024 with roundNeg := .addHalf } }) =
      some [.round11 (-29)] := by decide
theorem test_reset :
    record? (exec .reset { holding (ring 16) .awaitHeader 9 [1, 2] with out := [.ioWriteFault] }) =
      some (.awaitSync1, 0, 0, []) := by decide
/-- The status outputs at M3, and at M5, where the ring is full. -/
theorem test_rxSpace : ({ holding (ring 16) .awaitSync1 5 [] with head := 15 } : State).rxSpace = 1 := by decide
theorem test_rxSpace_full : ({ holding (ring 16) .awaitSync1 0 [] with head := 15 } : State).rxReady = false := by decide
/-- The pseudo-operations: P7's bytes fed at once, and P9, lines 1 and 2. -/
theorem test_rxFeed :
    record? (rxFeed [0xAA, 0xAA, 0x01, 0x00, 0x02, 0x01] { State.reset with cfg := { ring 1024 with rxChunk := 4 } }) =
      some (.awaitSync1, 6, 6, [.telegram 0x01 0x00 []]) := by decide
/-- RX.FEED into a ring that is full of noise: the first round has no room and only drains, by the model's choice (log 12); that frees the
cells, and the feed goes on. -/
theorem test_rxFeed_full :
    (next? (rxFeed [0xAA, 0xAA, 0x01, 0x00, 0x02, 0x01] (holding (ring 16) .awaitSync1 0 (List.replicate 15 0x55)))).map
      (fun s => (s.sync, s.fill, s.out, s.accepted)) =
      some (.awaitSync1, 0, [.telegram 0x01 0x00 []], [0xAA, 0xAA, 0x01, 0x00, 0x02, 0x01]) := by decide
theorem test_txSend :
    (next? (txSend 0x05 [0x00, 0x00, 0x80, 0x00] .success State.reset)).map (fun s => (s.handed, s.sent)) =
      some ([], [[0xAA, 0xAA, 0x05, 0x04, 0x00, 0x00, 0x80, 0x00, 0x33, 0x89]]) := by decide

/-! ### Witnesses: for every obligation with hypotheses, values that meet all of them, each clause at a boundary -/

/-- The candidate of Q10, whole, in the header state. -/
def good : State := holding (ring 1024) .awaitHeader 2 [0x03, 0x02, 0x12, 0x34, 0x6A, 0x4B]
/-- The candidate of Q11, with a wrong checksum. -/
def bad : State := holding (ring 1024) .awaitHeader 2 [0x03, 0x02, 0x13, 0x34, 0x6A, 0x4B]
/-- A frame and the first marker of another, not yet looked at; `head` is near the end of a small ring. -/
def small : State := holding (ring 16) .awaitSync1 4 [0xAA, 0xAA, 0x01, 0x00, 0x02, 0x01, 0xAA]
/-- The end of program P6: a full ring of 16 cells and a frame of 16 bytes behind the marker. -/
def stuck : State :=
  { holding (ring 16) .awaitHeader 2 [0x09, 0x0C, 0, 0, 0, 0, 0, 0, 0, 0, 0, 0, 0, 0] with
    head := 1
    accepted := [0xAA, 0xAA, 0x09, 0x0C, 0, 0, 0, 0, 0, 0, 0, 0, 0, 0, 0, 0, 0]
    buf := Memory.writeBytes [] 0 [0, 0xAA, 0x09, 0x0C, 0, 0, 0, 0, 0, 0, 0, 0, 0, 0, 0, 0] }

theorem good_inv : Inv good := ⟨by decide, by decide, by decide, by decide, by decide, by decide, rfl⟩
theorem small_inv : Inv small := ⟨by decide, by decide, by decide, by decide, by decide, by decide, rfl⟩
theorem stuck_inv : Inv stuck := ⟨by decide, by decide, by decide, by decide, by decide, by decide, rfl⟩
theorem reset_inv : Inv State.reset := ⟨by decide, by decide, by decide, by decide, by decide, by decide, rfl⟩

theorem reset_follows : FollowsTheStream State.reset := ⟨[], rfl, rfl⟩
/-- `good`, reached from reset by RX.WRITEs of these eight bytes. -/
def goodRun : State := { good with accepted := [0xAA, 0xAA, 0x03, 0x02, 0x12, 0x34, 0x6A, 0x4B] }
theorem goodRun_inv : Inv goodRun := ⟨by decide, by decide, by decide, by decide, by decide, by decide, rfl⟩
theorem goodRun_follows : FollowsTheStream goodRun := ⟨[0x03, 0x02, 0x12, 0x34, 0x6A, 0x4B], rfl, by decide⟩
/-- P4b: the run over these bytes has ended, with a header that waits and a request on port `fx` that stands. -/
def ended : State :=
  { holding (ring 1024) .awaitHeader 2 [0x03, 0xFF, 0x12, 0x34, 0x6A, 0x4B] with
    accepted := [0xAA, 0xAA, 0x03, 0xFF, 0x12, 0x34, 0x6A, 0x4B], inputs := [.port (.be16 1 2)] }
theorem ended_inv : Inv ended := ⟨by decide, by decide, by decide, by decide, by decide, by decide, rfl⟩
theorem ended_runEnded : RunEnded [0xAA, 0xAA, 0x03, 0xFF, 0x12, 0x34, 0x6A, 0x4B] ended :=
  ⟨rfl, .inr ⟨rfl, .inr ⟨0xFF, rfl, by decide⟩⟩, rfl, rfl⟩
/-- R279: the hang of program P6, with one more byte of the input that PROD is held with, is not the end of the run. -/
theorem test_hang_not_ended :
    step { stuck with inputs := [.port (.rx [0x00])] } = .next stuck ∧ ¬ RunEnded (stuck.accepted ++ [0x00]) stuck :=
  ⟨rfl, fun h => absurd h.1 (by decide)⟩

theorem witness_ResetLeavesTheRestAlone : exec .reset good = .next { State.reset with cfg := ring 1024 } := by rfl

theorem witness_StepRunsTheDecodedOperation_port :
    ({ good with inputs := [.port (.ck [1]), .frm] } : State).inputs = .port (.ck [1]) :: [.frm] ∧
    decode good.cfg (.port (.ck [1])) = .ok (.ckF16 [1]) := by decide
theorem witness_StepRunsTheDecodedOperation_frm :
    ({ good with inputs := [.frm] } : State).inputs = .frm :: [] ∧
    rxFetch { good with inputs := [.frm] } = .ok [0x03, 0x02, 0x12, 0x34, 0x6A, 0x4B] ∧
    decode good.cfg (.stream good.sync [0x03, 0x02, 0x12, 0x34, 0x6A, 0x4B]) = .ok .rxStepFrameok := ⟨rfl, rfl, rfl⟩
theorem witness_StepRunsTheDecodedOperation_idle :
    State.reset.inputs = [] ∧ rxFetch State.reset = .ok [] ∧
    decode State.reset.cfg (.stream State.reset.sync []) = .ok .rxStepStopempty := ⟨rfl, rfl, rfl⟩

/-- The smallest `MAX_FRAME`, with the only payload it leaves. -/
theorem witness_DecodeEncodeAgree :
    ({ ring 2 with maxFrame := 6 } : Config).Valid ∧ WellFormed { ring 2 with maxFrame := 6 } (.txEncode 0xAA []) = true := by
  decide
/-- The longest payload of a small `MAX_FRAME`. -/
theorem witness_BuiltFramesAreReadBack :
    ({ ring 2 with maxFrame := 9 } : Config).Valid ∧
    [0xAA, 0x55, (0xAA : Byte)].length ≤ ({ ring 2 with maxFrame := 9 } : Config).maxPayload := by decide

theorem witness_S1HitConsumesTheMarker :
    small.sync = .awaitSync1 ∧ 1 ≤ small.fill ∧ small.readCell small.tail = .ok 0xAA := ⟨rfl, by decide, rfl⟩
theorem witness_S1MissSkipsTheByte :
    let s := holding (ring 16) .awaitSync1 15 [0xAB]
    s.sync = .awaitSync1 ∧ 1 ≤ s.fill ∧ s.readCell s.tail = .ok 0xAB ∧ (0xAB : Byte) ≠ 0xAA :=
  ⟨rfl, by decide, rfl, by decide⟩
theorem witness_S2HitReachesTheHeader :
    let s := holding (ring 16) .awaitSync2 15 [0xAA]
    s.sync = .awaitSync2 ∧ 1 ≤ s.fill ∧ s.readCell s.tail = .ok 0xAA := ⟨rfl, by decide, rfl⟩
theorem witness_S2MissHuntsAgain :
    let s := holding (ring 16) .awaitSync2 15 [0x55]
    s.sync = .awaitSync2 ∧ 1 ≤ s.fill ∧ s.readCell s.tail = .ok 0x55 ∧ (0x55 : Byte) ≠ 0xAA :=
  ⟨rfl, by decide, rfl, by decide⟩
theorem witness_StopEmptyChangesNothing :
    (State.reset.sync = .awaitSync1 ∧ State.reset.fill = 0) ∧
    (holding (ring 16) .awaitSync2 7 []).sync = .awaitSync2 ∧ (holding (ring 16) .awaitSync2 7 []).fill = 0 := by decide
/-- Three bytes; and four bytes whose length byte asks for five. -/
theorem witness_HdrWaitChangesNothing :
    ((holding (ring 16) .awaitHeader 2 [1, 0, 2]).sync = .awaitHeader ∧ (holding (ring 16) .awaitHeader 2 [1, 0, 2]).fill < 4) ∧
    (holding (ring 16) .awaitHeader 2 [1, 1, 2, 3]).sync = .awaitHeader ∧
    ∃ length, (holding (ring 16) .awaitHeader 2 [1, 1, 2, 3]).readCell 3 = .ok length ∧
      (holding (ring 16) .awaitHeader 2 [1, 1, 2, 3]).fill < length.toNat + 4 :=
  ⟨by decide, rfl, 1, rfl, by decide⟩
theorem witness_FrameOkDeliversTheTelegram :
    good.sync = .awaitHeader ∧ (0x02 : Byte).toNat + 4 ≤ good.fill ∧ [0x12, (0x34 : Byte)].length = (0x02 : Byte).toNat ∧
    good.ringRead good.tail ((0x02 : Byte).toNat + 4) = .ok (0x03 :: 0x02 :: ([0x12, 0x34] ++ [0x6A, 0x4B])) ∧
    f16 good.cfg.ckInit (0x03 :: 0x02 :: [0x12, 0x34]) = beHalf 0x6A 0x4B := ⟨rfl, by decide, rfl, rfl, by decide⟩
/-- The shortest frame (Q12), with no payload; these are the hypotheses of FrameOkDeliversTheTelegram as well. -/
theorem witness_PayloadReadsAreServedInTheDelivery :
    let s := holding (ring 16) .awaitHeader 2 [0x01, 0x00, 0x02, 0x01]
    s.sync = .awaitHeader ∧ (0x00 : Byte).toNat + 4 ≤ s.fill ∧ ([] : List Byte).length = (0x00 : Byte).toNat ∧
    s.ringRead s.tail ((0x00 : Byte).toNat + 4) = .ok (0x01 :: 0x00 :: ([] ++ [0x02, 0x01])) ∧
    f16 s.cfg.ckInit [0x01, 0x00] = beHalf 0x02 0x01 := ⟨rfl, by decide, rfl, rfl, by decide⟩
theorem witness_FrameBadReportsAndSkips :
    bad.sync = .awaitHeader ∧ (0x02 : Byte).toNat + 4 ≤ bad.fill ∧ [0x13, (0x34 : Byte)].length = (0x02 : Byte).toNat ∧
    bad.ringRead bad.tail ((0x02 : Byte).toNat + 4) = .ok (0x03 :: 0x02 :: ([0x13, 0x34] ++ [0x6A, 0x4B])) ∧
    f16 bad.cfg.ckInit (0x03 :: 0x02 :: [0x13, 0x34]) ≠ beHalf 0x6A 0x4B := ⟨rfl, by decide, rfl, rfl, by decide⟩
theorem witness_DispatchTableOfRxStep : Inv small ∧ rxOutcome small = .ok .s1hit := ⟨small_inv, rfl⟩
theorem witness_RxStepTakesExactlyOneOutcome : Inv good ∧ rxOutcome good = .ok .frameok := ⟨good_inv, rfl⟩
theorem witness_HostCannotInfluenceTheFramer : ∃ t, exec .rxStepFrameok good = .next t := ⟨_, rfl⟩

/-- A write of one byte, and one of all the room there is: five cells up to the end of the ring. -/
theorem witness_RxWriteStoresTheBytes :
    (1 ≤ [(7 : Byte)].length ∧ [(7 : Byte)].length ≤ small.rxSpace ∧ [(7 : Byte)].length ≤ small.cfg.rxChunk) ∧
    [1, 2, 3, 4, (5 : Byte)].length = small.rxSpace ∧ [1, 2, 3, 4, (5 : Byte)].length ≤ small.cfg.rxChunk := by decide
/-- One byte more than fits; one byte more than `RX_CHUNK`; no byte. -/
theorem witness_RxWriteHoldsWhatDoesNotFit :
    small.rxSpace < [1, 2, 3, 4, 5, (6 : Byte)].length ∧
    ({ small with cfg := { ring 16 with rxChunk := 1 } } : State).cfg.rxChunk < [1, (2 : Byte)].length ∧
    [1, (2 : Byte)] ≠ [] ∧ ([] : List Byte) = [] := by decide
theorem witness_RxWriteAppendsToTheStream :
    Inv small ∧ small.buffered = .ok [0xAA, 0xAA, 0x01, 0x00, 0x02, 0x01, 0xAA] ∧
    1 ≤ [1, 2, 3, 4, (5 : Byte)].length ∧ [1, 2, 3, 4, (5 : Byte)].length ≤ small.rxSpace ∧
    [1, 2, 3, 4, (5 : Byte)].length ≤ small.cfg.rxChunk ∧ ∃ t, exec (.rxWrite [1, 2, 3, 4, 5]) small = .next t :=
  ⟨small_inv, rfl, by decide, by decide, by decide, _, rfl⟩
theorem witness_StatusOutputsDescribeTheRing : Inv stuck ∧ stuck.rxReady = false := ⟨stuck_inv, by decide⟩
theorem witness_DrainRunsToTheEndOfTheStream :
    Inv small ∧ small.buffered = .ok [0xAA, 0xAA, 0x01, 0x00, 0x02, 0x01, 0xAA] := ⟨small_inv, rfl⟩

/-- Bytes written one at a time, a write that is held among them, with framer steps in between. -/
def schedule1 : List RxMove := [.write [0xAA], .step, .write [1, 2, 3, 4, 5, 6, 7, 8, 9, 10, 11, 12, 13, 14, 15, 16], .step, .write [0x55]]
/-- The same bytes at once. -/
def schedule2 : List RxMove := [.write [0xAA, 0x55]]

theorem witness_StreamSemanticsOfEverySchedule :
    Inv small ∧ small.buffered = .ok [0xAA, 0xAA, 0x01, 0x00, 0x02, 0x01, 0xAA] ∧
    ∃ t u, runSchedule schedule1 small = some ([0xAA, 0x55], t) ∧ exec .rxDrain t = .next u :=
  ⟨small_inv, rfl, _, _, rfl, rfl⟩
theorem witness_ChunkingInvariance :
    Inv small ∧ ∃ t t' u u', runSchedule schedule1 small = some ([0xAA, 0x55], t) ∧
      runSchedule schedule2 small = some ([0xAA, 0x55], t') ∧ exec .rxDrain t = .next u ∧ exec .rxDrain t' = .next u' :=
  ⟨small_inv, _, _, _, _, rfl, rfl, rfl, rfl⟩
/-- The last payload byte, no window, and one past the payload. -/
theorem witness_PlReadAnswersInTheWindowOnly :
    let s : State := { good with delivery := some 2 }
    (s.delivery = some 2 ∧ 1 < 2 ∧ s.readCell ((s.tail + 2 + 1) % s.cfg.capacity) = .ok 0x34) ∧
    good.delivery = none ∧ s.delivery = some 2 ∧ 2 ≤ 2 := ⟨⟨rfl, by decide, rfl⟩, rfl, rfl, by decide⟩

theorem witness_TxEncodeBuildsTheFrame :
    [0x12, (0x34 : Byte)].length ≤ State.reset.cfg.maxPayload ∧
    beHalf 0x6A 0x4B = f16 State.reset.cfg.ckInit (0x03 :: BitVec.ofNat 8 [0x12, (0x34 : Byte)].length :: [0x12, 0x34]) := by
  decide
/-- One above the limit, with `MAX_FRAME = 7`. -/
theorem witness_TxEncodeTooLargeRaisesEncodeFault :
    ({ ring 1024 with maxFrame := 7 } : Config).maxPayload < 2 ∧ [1, (2 : Byte)].length = 2 := by decide
/-- One above the limit, and the limit. -/
theorem witness_TheLengthCheckSplitsTheEncodeRequests :
    ({ ring 1024 with maxFrame := 7 } : Config).maxPayload < [1, (2 : Byte)].length ∧
    1 ≤ ({ ring 1024 with maxFrame := 7 } : Config).maxPayload := by decide
theorem witness_TxWriteTakesTheAnswer : ({ good with handed := [[1], [2]] } : State).handed = [1] :: [[2]] := rfl
theorem witness_TxWriteKeepsTheOrder :
    let s : State := { good with handed := [[1], [2]] }
    (s.handed = [1] :: [[2]] ∧ ([2] : List Byte) ≠ [1] ∧ ([2] : List Byte) ∈ ([[2]] : List (List Byte))) ∧ [3] ∉ s.handed := by
  decide
theorem witness_FramesLeaveInOrder : ∃ t, exec (.txEncode 0x01 []) good = .next t := ⟨_, rfl⟩
theorem witness_EncodedFramesAreReceived :
    Inv State.reset ∧ State.reset.cfg.DeadlockFree ∧ State.reset.sync = .awaitSync1 ∧ State.reset.fill = 0 ∧
    ([] : List Byte).length ≤ State.reset.cfg.maxPayload := ⟨reset_inv, by decide, rfl, by decide, by decide⟩

/-- The smallest ring without the deadlock, with a byte that has not been looked at; and no bytes to feed. -/
theorem witness_RxFeedWritesEverything :
    let s := holding (ring 260) .awaitSync1 259 [0x55]
    Inv s ∧ s.cfg.DeadlockFree ∧ s.buffered = .ok [0x55] ∧ [(0xAA : Byte)] ≠ [] ∧ ([] : List Byte) = [] :=
  ⟨⟨by decide, by decide, by decide, by decide, by decide, by decide, rfl⟩, by decide, rfl, by decide, rfl⟩

/-- The greatest folded sum of R116. -/
theorem witness_FoldIsAnEndAroundCarry : (0x1FE : Half).toNat ≤ 0x1FE := by decide
/-- The greatest folded sums and a whole block of the greatest byte. -/
theorem witness_AccumulatorsNeverOverflow :
    (⟨0x1FE, 0x1FE⟩ : Sums).sum1.toNat ≤ 0x1FE ∧ (⟨0x1FE, 0x1FE⟩ : Sums).sum2.toNat ≤ 0x1FE ∧
    (List.replicate 20 (0xFF : Byte)).length ≤ 20 := by decide
theorem witness_CkInitMattersForZerosOnly :
    (∃ b ∈ [0, (1 : Byte)], b ≠ 0) ∧ (∀ b ∈ ([] : List Byte), b = 0) ∧ ∀ b ∈ [0, (0 : Byte)], b = 0 := by decide
theorem witness_OneByteChangesAreDetected :
    ((0x00 : Byte) ≠ 0x01 ∧ ¬((0x00 : Byte) = 0x00 ∧ (0x01 : Byte) = 0xFF) ∧ ¬((0x00 : Byte) = 0xFF ∧ (0x01 : Byte) = 0x00)) ∧
    ∃ x ∈ [(3 : Byte)] ++ [], x ≠ 0 := by decide

/-- Both ends of the widths, the greatest fraction, and the first value outside each limit. -/
theorem witness_MilliConvertsInItsDomain :
    (3 ≤ 3 ∧ 3 ≤ 32 ∧ 7 < 2 ^ 3) ∧ (3 ≤ 32 ∧ 32 ≤ 32 ∧ 4294967295 < 2 ^ 32) ∧ 2 < 3 ∧ 32 < 33 ∧ (3 ≤ 11 ∧ 11 ≤ 32 ∧ 2 ^ 11 ≤ 2048) := by
  decide
theorem witness_MilliIsTheFloorOfThousandths : 3 ≤ 3 ∧ 7 < 2 ^ 3 ∧ 6 ≤ 7 := by decide
theorem witness_Digits3GivesThreeDigits : 999 ≤ 999 ∧ 999 < 1000 := by decide
/-- The greatest negative word under both settings, and zero. -/
theorem witness_Round11FollowsRoundNeg :
    0 ≤ (0x00000000 : Word).toInt ∧ (0xFFFFFFFF : Word).toInt < 0 ∧ (ring 16).roundNeg = .subHalf ∧
    ({ ring 16 with roundNeg := .addHalf } : Config).roundNeg = .addHalf := by decide

theorem witness_EveryStepKeepsTheInvariant : Inv good ∧ ∃ t, step good = .next t := ⟨good_inv, _, rfl⟩
theorem witness_EveryStepFollowsTheStream : Inv goodRun ∧ FollowsTheStream goodRun ∧ ∃ t, step goodRun = .next t :=
  ⟨goodRun_inv, goodRun_follows, _, rfl⟩
theorem witness_EndOfARunIsTheParseOfItsInput :
    Inv ended ∧ FollowsTheStream ended ∧ RunEnded [0xAA, 0xAA, 0x03, 0xFF, 0x12, 0x34, 0x6A, 0x4B] ended :=
  ⟨ended_inv, ⟨[0x03, 0xFF, 0x12, 0x34, 0x6A, 0x4B], rfl, by decide⟩, ended_runEnded⟩
theorem witness_NoStepReadsAnUnwrittenCell : Inv small := small_inv
theorem witness_OwnersAloneWriteTheRecord :
    (∃ t, exec .rxStepFrameok good = .next t) ∧ Instr.rxStepFrameok ≠ .reset ∧ byProducer .rxStepFrameok = false ∧
    (∃ t, exec (.rxWrite [1]) small = .next t) ∧ Instr.rxWrite [1] ≠ .reset ∧ byFramer (.rxWrite [1]) = false :=
  ⟨⟨_, rfl⟩, by decide, rfl, ⟨_, rfl⟩, by decide, rfl⟩
theorem witness_ReportsComeFromTheirOperations :
    Instr.rxStepFramebad ≠ .reset ∧ Instr.rxStepFramebad ≠ .rxDrain ∧ ∃ t, exec .rxStepFramebad bad = .next t :=
  ⟨by decide, by decide, _, rfl⟩
theorem witness_FourReportsAreNeverRaised :
    ∃ t, step bad = .next t ∧ ∃ e ∈ t.out, e ∉ bad.out := ⟨_, rfl, .ckFault 0x03 0x02 0x6A4B 0x6C4C, by decide, by decide⟩
/-- The end of program P6. -/
theorem witness_CapacityDeadlockHoldsForEver :
    Inv stuck ∧ stuck.sync = .awaitHeader ∧ stuck.readCell ((stuck.tail + 1) % stuck.cfg.capacity) = .ok 0x0C ∧
    stuck.cfg.capacity - 1 < (0x0C : Byte).toNat + 4 ∧ stuck.fill = stuck.cfg.capacity - 1 ∧ [(0x00 : Byte)] ≠ [] :=
  ⟨stuck_inv, rfl, rfl, by decide, by decide, by decide⟩
/-- Q14, in the smallest ring that is free from the deadlock. -/
theorem witness_LargeRingsNeverDeadlock :
    let s := holding (ring 260) .awaitHeader 2 [0x03, 0xFF, 0x12, 0x34, 0x6A, 0x4B]
    Inv s ∧ s.cfg.DeadlockFree ∧ rxOutcome s = .ok .hdrwait :=
  ⟨⟨by decide, by decide, by decide, by decide, by decide, by decide, rfl⟩, by decide, rfl⟩

end Sys2Proof.Tests
end

section
/-! The receive record under every operation (10_state.md): the status outputs as functions of the fill, what RX.WRITE stores, the
owner of each part of the record, and the invariant. -/

namespace Sys2Proof.Machine

/-! ### The fill and the status outputs -/

theorem fill_eq_zero_iff {s : State} (hh : s.head < s.cfg.capacity) (ht : s.tail < s.cfg.capacity) :
    s.fill = 0 ↔ s.head = s.tail := by
  rcases fill_cases hh ht with ⟨h, e⟩ | ⟨h, e⟩ <;> omega

/-- One cell stays free: the ring is full when `head` stands just behind `tail` (R26). -/
theorem fill_eq_full_iff {s : State} (hh : s.head < s.cfg.capacity) (ht : s.tail < s.cfg.capacity) :
    s.fill = s.cfg.capacity - 1 ↔ (s.head + 1) % s.cfg.capacity = s.tail := by
  have hnext : (s.head + 1) % s.cfg.capacity = if s.head + 1 = s.cfg.capacity then 0 else s.head + 1 := by
    split_ifs with hlast
    · rw [hlast, Nat.mod_self]
    · exact Nat.mod_eq_of_lt (by omega)
  rw [hnext]
  rcases fill_cases hh ht with ⟨h, e⟩ | ⟨h, e⟩ <;> split_ifs <;> omega

theorem rxEmpty_iff {s : State} (hh : s.head < s.cfg.capacity) (ht : s.tail < s.cfg.capacity) :
    s.rxEmpty = true ↔ s.fill = 0 := by
  rw [fill_eq_zero_iff hh ht, State.rxEmpty, decide_eq_true_iff]

/-- There is always room up to the end of `BUF`, so only a full ring has no space (R54). -/
theorem rxReady_eq_false_iff {s : State} (hh : s.head < s.cfg.capacity) :
    s.rxReady = false ↔ s.fill = s.cfg.capacity - 1 := by
  have hlt : s.fill < s.cfg.capacity := fill_lt (by omega)
  rw [State.rxReady, decide_eq_false_iff_not, State.rxSpace]
  omega

/-! ### RX.WRITE -/

/-- What an accepted RX.WRITE leaves (R151): the bytes from `head` on, `head` behind them, the record of accepted bytes longer. -/
def State.store (s : State) (v : List Byte) : State :=
  { s with buf := s.buf.writeBytes s.head v, head := s.wrap (s.head + v.length), accepted := s.accepted ++ v }

/-- Stored bytes that fit raise the fill by their number (R22, R25). -/
theorem fill_store {s : State} {v : List Byte} (h : s.fill + v.length < s.cfg.capacity) :
    (s.store v).fill = s.fill + v.length :=
  calc (s.store v).fill
      = ((s.head + v.length) % s.cfg.capacity + (s.cfg.capacity - s.tail)) % s.cfg.capacity := rfl
    _ = (s.head + (s.cfg.capacity - s.tail) + v.length) % s.cfg.capacity := by
        rw [Nat.mod_add_mod, Nat.add_right_comm]
    _ = (s.fill + v.length) % s.cfg.capacity := by rw [State.fill, Nat.mod_add_mod]
    _ = s.fill + v.length := Nat.mod_eq_of_lt h

/-- A cell of the written range has a value, and one that had a value keeps one. -/
theorem Memory.isSome_read_writeBytes {m : Memory} {a c : Nat} {v : List Byte}
    (h : (m.read c).isSome = true ∨ (a ≤ c ∧ c < a + v.length)) : ((m.writeBytes a v).read c).isSome = true := by
  by_cases hin : a ≤ c ∧ c < a + v.length
  · obtain ⟨k, rfl⟩ := Nat.exists_eq_add_of_le hin.1
    rw [Memory.read_writeBytes_inside v m a k (by omega)]
    rfl
  · have hold := h.resolve_right hin
    rcases Nat.lt_or_ge c a with hlt | hge
    · rwa [Memory.read_writeBytes_below v m hlt]
    · rwa [Memory.read_writeBytes_above v m (by omega)]

/-- An accepted RX.WRITE keeps the invariant: a cell of the longer filled region was filled before or has just been written
(R65). -/
theorem Inv.store {s : State} (h : Inv s) {v : List Byte} (hv : v.length ≤ s.rxSpace) : Inv (s.store v) := by
  have hcap : 0 < s.cfg.capacity := Nat.lt_of_le_of_lt (Nat.zero_le _) h.headInRing
  have hfill : s.fill + v.length < s.cfg.capacity := by
    have := fill_lt hcap
    have := Nat.le_trans hv (Nat.min_le_left _ _)
    omega
  have hend : s.head + v.length ≤ s.cfg.capacity := by
    have := Nat.le_trans hv (Nat.min_le_right _ _)
    have := h.headInRing
    omega
  exact
    { cfgValid := h.cfgValid
      bufWf := Memory.writeBytes_wf v _ _ h.bufWf
      bufInRing := fun p hp => by
        rcases Memory.mem_writeBytes hp with ⟨-, hlt⟩ | hold
        · exact Nat.lt_of_lt_of_le hlt hend
        · exact h.bufInRing p hold
      headInRing := wrap_lt s _ hcap
      tailInRing := h.tailInRing
      filledWritten := fun k hk => by
        rw [fill_store hfill] at hk
        refine Memory.isSome_read_writeBytes ?_
        show (s.buf.read (s.wrap (s.tail + k))).isSome = true ∨
          (s.head ≤ s.wrap (s.tail + k) ∧ s.wrap (s.tail + k) < s.head + v.length)
        rcases Nat.lt_or_ge k s.fill with hlt | hge
        · exact .inl (h.filledWritten k hlt)
        · obtain ⟨j, rfl⟩ := Nat.exists_eq_add_of_le hge
          have hcell : s.wrap (s.tail + (s.fill + j)) = s.head + j := by
            rw [← Nat.add_assoc, ← wrap_wrap_add, wrap_tail_fill h.headInRing h.tailInRing]
            exact wrap_of_lt s (by omega)
          exact .inr (by omega)
      noDelivery := h.noDelivery }

/-! ### Outcomes that are no fault -/

/-- The outcome is no fault, and a next state has the property. -/
inductive Answers (P : State → Prop) : Host.Outcome State Fault Refusal → Prop
  | next {t : State} (h : P t) : Answers P (.next t)
  | refused (r : Refusal) : Answers P (.refused r)

theorem Answers.mono {P Q : State → Prop} {o : Host.Outcome State Fault Refusal} (h : Answers P o)
    (hPQ : ∀ t, P t → Q t) : Answers Q o := by
  cases h with
  | next h => exact .next (hPQ _ h)
  | refused r => exact .refused r

theorem Answers.of_eq_next {P : State → Prop} {o : Host.Outcome State Fault Refusal} {t : State} (h : Answers P o)
    (ho : o = .next t) : P t := by
  subst ho
  cases h with
  | next h => exact h

theorem Answers.ne_fault {P : State → Prop} {o : Host.Outcome State Fault Refusal} (h : Answers P o) (f : Fault) :
    o ≠ .fault f := by
  rintro rfl
  cases h

/-! ### The units beside RX, and the owner of each operation -/

/-- The whole receive record, the record of accepted bytes and the delivery are as they were. -/
structure SameRecord (s t : State) : Prop extends SameRing s t where
  sync : t.sync = s.sync
  accepted : t.accepted = s.accepted
  delivery : t.delivery = s.delivery

theorem SameRecord.refl (s : State) : SameRecord s s := ⟨SameRing.refl s, rfl, rfl, rfl⟩

theorem SameRecord.inv {s t : State} (e : SameRecord s t) (h : Inv s) : Inv t :=
  h.of_sameRing e.toSameRing (e.delivery.trans h.noDelivery)

theorem sameRecord_raise (s : State) (e : Event) : SameRecord s (s.raise e) := ⟨sameRing_raise s e, rfl, rfl, rfl⟩

theorem sameRecord_respond (s : State) (r : Result) : SameRecord s (s.respond r) :=
  ⟨sameRing_respond s r, rfl, rfl, rfl⟩

theorem execTxEncode_sameRecord (type : Byte) (payload : List Byte) (s : State) :
    Answers (SameRecord s) (execTxEncode type payload s) := by
  unfold execTxEncode
  split_ifs
  · exact .next ⟨⟨rfl, rfl, rfl, rfl⟩, rfl, rfl, rfl⟩
  · exact .next (sameRecord_raise s _)

theorem execTxEncodeToolarge_sameRecord (type : Byte) (n : Nat) (s : State) :
    Answers (SameRecord s) (execTxEncodeToolarge type n s) := by
  unfold execTxEncodeToolarge
  split_ifs
  · exact .next (sameRecord_raise s _)
  · exact .refused _

theorem execTxWrite_sameRecord (frame : List Byte) (answer : LinkAnswer) (s : State) :
    Answers (SameRecord s) (execTxWrite frame answer s) := by
  unfold execTxWrite
  split
  · exact .refused _
  · split_ifs
    · cases answer with
      | success => exact .next ⟨⟨rfl, rfl, rfl, rfl⟩, rfl, rfl, rfl⟩
      | failure => exact .next ⟨⟨rfl, rfl, rfl, rfl⟩, rfl, rfl, rfl⟩
    · exact .next (SameRecord.refl s)
    · exact .refused _

theorem execFxMilli_sameRecord (w f : Nat) (s : State) : Answers (SameRecord s) (execFxMilli w f s) := by
  unfold execFxMilli
  split_ifs
  · exact .next (sameRecord_respond s _)
  · exact .refused _
  · exact .refused _

theorem execFxDigits3_sameRecord (f : Nat) (s : State) : Answers (SameRecord s) (execFxDigits3 f s) := by
  unfold execFxDigits3
  split_ifs
  · exact .next (sameRecord_respond s _)
  · exact .refused _

/-- The operations by what they do to the receive record (R17, R27). -/
inductive ByOwner : Instr → Prop
  /-- FRM's RX.STEP. -/
  | rxStep (o : RxOutcome) : ByOwner o.toInstr
  /-- FRM's RX.DRAIN. -/
  | rxDrain : ByOwner .rxDrain
  /-- PROD's RX.WRITE. -/
  | rxWrite (v : List Byte) : ByOwner (.rxWrite v)
  /-- RESET, which writes the whole record. -/
  | reset : ByOwner .reset
  /-- PL.READ, which reads it. -/
  | plRead (k : Nat) : ByOwner (.plRead k)
  /-- The operations of the other units, which never fault and leave the record alone. -/
  | other {i : Instr} (h : ∀ s, Answers (SameRecord s) (exec i s)) : ByOwner i

theorem instr_byOwner (i : Instr) : ByOwner i := by
  cases i with
  | rxStepS1hit => exact .rxStep .s1hit
  | rxStepS1miss => exact .rxStep .s1miss
  | rxStepS2hit => exact .rxStep .s2hit
  | rxStepS2miss => exact .rxStep .s2miss
  | rxStepStopempty => exact .rxStep .stopempty
  | rxStepHdrwait => exact .rxStep .hdrwait
  | rxStepFrameok => exact .rxStep .frameok
  | rxStepFramebad => exact .rxStep .framebad
  | txEncode type payload => exact .other (execTxEncode_sameRecord type payload)
  | txEncodeToolarge type n => exact .other (execTxEncodeToolarge_sameRecord type n)
  | txWrite frame answer => exact .other (execTxWrite_sameRecord frame answer)
  | ckF16 d => exact .other fun s => .next (sameRecord_respond s _)
  | rxWrite v => exact .rxWrite v
  | rxDrain => exact .rxDrain
  | plRead k => exact .plRead k
  | fxBe16 b0 b1 => exact .other fun s => .next (sameRecord_respond s _)
  | fxBe32 b0 b1 b2 b3 => exact .other fun s => .next (sameRecord_respond s _)
  | fxMilli w f => exact .other (execFxMilli_sameRecord w f)
  | fxGauge v => exact .other fun s => .next (sameRecord_respond s _)
  | fxCounter ip fp => exact .other fun s => .next (sameRecord_respond s _)
  | fxDigits3 f => exact .other (execFxDigits3_sameRecord f)
  | fxRound11 x => exact .other fun s => .next (sameRecord_respond s _)
  | reset => exact .reset

/-! ### The invariant under every operation -/

/-- An outcome of RX.STEP that the state does not select holds (R18; log 8). -/
theorem runOutcome_of_not_selected {s : State} {fs : List Byte} {o : RxOutcome} (hf : rxFetch s = .ok fs)
    (ho : decodeStream s.cfg s.sync fs ≠ o) : runOutcome o s = .next s := by
  have hheld (k : List Byte → Host.Outcome State Fault Refusal) : whenSelected o s k = .next s := by
    simp only [whenSelected, hf, if_neg ho, hold]
  cases o <;> exact hheld _

/-- Every outcome of RX.STEP answers and keeps the invariant, selected or not (R26, R65). -/
theorem Inv.runOutcome_next {s : State} (h : Inv s) (o : RxOutcome) : ∃ t, runOutcome o s = .next t ∧ Inv t := by
  obtain ⟨bs, hb⟩ := h.buffered_ok
  obtain ⟨fs, hf, hd, -⟩ := rxFetch_of_buffered hb
  obtain ⟨-, hstop, hgo⟩ := rxStep_of_buffered h hb
  by_cases ho : decodeStream s.cfg s.sync bs = o
  · subst ho
    cases hs : (decodeStream s.cfg s.sync bs).isStop with
    | true => exact ⟨s, hstop hs, h⟩
    | false =>
      obtain ⟨t, ht, hi, -⟩ := hgo hs
      exact ⟨t, ht, hi⟩
  · exact ⟨s, runOutcome_of_not_selected hf (by rwa [hd]), h⟩

theorem Inv.drainLoop_answers {s : State} (h : Inv s) (n : Nat) : Answers Inv (drainLoop n s) := by
  induction n generalizing s with
  | zero => exact .next h
  | succ n ih =>
    obtain ⟨bs, hb⟩ := h.buffered_ok
    have ho := (rxStep_of_buffered h hb).1
    obtain ⟨u, hu, hi⟩ := h.runOutcome_next (decodeStream s.cfg s.sync bs)
    rw [drainLoop_succ ho hu]
    split_ifs
    · exact .next hi
    · exact ih hi

theorem Inv.execRxDrain_answers {s : State} (h : Inv s) : Answers Inv (execRxDrain s) :=
  h.drainLoop_answers (s.fill + 1)

theorem Inv.execRxWrite_answers {s : State} (h : Inv s) (v : List Byte) : Answers Inv (execRxWrite v s) := by
  by_cases hv : v = []
  · subst hv
    exact .refused _
  · by_cases hfit : v.length ≤ s.rxSpace ∧ v.length ≤ s.cfg.rxChunk
    · rw [execRxWrite_accepted (List.length_pos_iff.2 hv) hfit.1 hfit.2]
      exact .next (h.store hfit.1)
    · have hheld : execRxWrite v s = .next s := by
        simp [execRxWrite, hv, hfit, hold]
      rw [hheld]
      exact .next h

/-- PL.READ is refused in every state of the invariant: no delivery is in progress between operations (R59, R167). -/
theorem Inv.execPlRead_answers {s : State} (h : Inv s) (k : Nat) : Answers Inv (execPlRead k s) := by
  have hrefused : execPlRead k s = .refused .windowClosed := by
    simp only [execPlRead, readPayload, h.noDelivery]
  rw [hrefused]
  exact .refused _

/-- RESET gives a state of the invariant from every state, whatever the ring held (R260). -/
theorem inv_of_reset {s t : State} (hc : s.cfg.Valid) (h : exec .reset s = .next t) : Inv t := by
  cases h
  have hcap : 0 < s.cfg.capacity := Nat.lt_of_lt_of_le Nat.zero_lt_two hc.1
  exact
    { cfgValid := hc
      bufWf := rfl
      bufInRing := fun _ hp => nomatch hp
      headInRing := hcap
      tailInRing := hcap
      filledWritten := fun k hk => by
        rw [(fill_eq_zero_iff hcap hcap).2 rfl] at hk
        exact absurd hk (Nat.not_lt_zero k)
      noDelivery := rfl }

/-- No operation faults in a state of the invariant, and one that answers keeps it (R26, R65). -/
theorem Inv.exec_answers {s : State} (h : Inv s) (i : Instr) : Answers Inv (exec i s) := by
  cases instr_byOwner i with
  | rxStep o =>
    obtain ⟨t, ht, hi⟩ := h.runOutcome_next o
    rw [exec_toInstr, ht]
    exact .next hi
  | rxDrain => exact h.execRxDrain_answers
  | rxWrite v => exact h.execRxWrite_answers v
  | reset => exact .next (inv_of_reset h.cfgValid rfl)
  | plRead k => exact h.execPlRead_answers k
  | other hother => exact (hother s).mono fun _ e => e.inv h

/-- The fetch answers in a state of the invariant: the cells it reads have been written (R64, R65). -/
theorem Inv.fetch_next {s : State} (h : Inv s) : ∃ e later, fetch s = .ok (e, { s with inputs := later }) := by
  obtain ⟨bs, hb⟩ := h.buffered_ok
  obtain ⟨fs, hf, -⟩ := rxFetch_of_buffered hb
  have hfetch : ∃ e s', fetch s = .ok (e, s') := by
    unfold fetch
    split
    · exact ⟨_, _, by rw [hf]⟩
    · exact ⟨_, _, by rw [hf]⟩
    · exact ⟨_, _, rfl⟩
  obtain ⟨e, s', he⟩ := hfetch
  obtain ⟨later, rfl⟩ := fetch_ok he
  exact ⟨e, later, he⟩

theorem Inv.step_answers {s : State} (h : Inv s) : Answers Inv (step s) := by
  obtain ⟨e, later, he⟩ := h.fetch_next
  have hlater : Inv { s with inputs := later } := h.of_sameRing ⟨rfl, rfl, rfl, rfl⟩ h.noDelivery
  unfold step
  rw [he]
  dsimp only
  split
  · exact .refused _
  · exact hlater.exec_answers _

/-! ### Who writes what -/

theorem readCell_congr {s t : State} (hc : t.cfg = s.cfg) (hb : t.buf = s.buf) (a : Nat) :
    t.readCell a = s.readCell a := by
  simp only [State.readCell, hc, hb]

/-- PROD's part of the receive record is as it was: the configuration, `BUF`, `head` and the record of accepted bytes (R27). -/
structure SameProducerPart (s t : State) : Prop where
  cfg : t.cfg = s.cfg
  buf : t.buf = s.buf
  head : t.head = s.head
  accepted : t.accepted = s.accepted

theorem SameProducerPart.refl (s : State) : SameProducerPart s s := ⟨rfl, rfl, rfl, rfl⟩

theorem SameProducerPart.trans {s t u : State} (h : SameProducerPart s t) (h' : SameProducerPart t u) :
    SameProducerPart s u :=
  ⟨h'.cfg.trans h.cfg, h'.buf.trans h.buf, h'.head.trans h.head, h'.accepted.trans h.accepted⟩

theorem runOutcome_sameProducerPart {o : RxOutcome} {s t : State} (h : runOutcome o s = .next t) :
    SameProducerPart s t := by
  obtain ⟨hcfg, hbuf, hhead, -, -, haccepted, -⟩ := runOutcome_frame h
  exact ⟨hcfg, hbuf, hhead, haccepted⟩

theorem drainLoop_sameProducerPart {n : Nat} {s t : State} (h : drainLoop n s = .next t) : SameProducerPart s t := by
  induction n generalizing s with
  | zero =>
    cases h
    exact SameProducerPart.refl _
  | succ n ih =>
    obtain ⟨o, u, -, hu, ⟨-, rfl⟩ | ⟨-, hrest⟩⟩ := drainLoop_next h
    · exact runOutcome_sameProducerPart hu
    · exact (runOutcome_sameProducerPart hu).trans (ih hrest)

/-- What an operation may write of the receive record, by its owner (R27, R30): the framer's leave PROD's part alone, RX.WRITE the
configuration and FRM's part, RESET the configuration, and every other the whole record. -/
theorem exec_writes {i : Instr} {s t : State} (h : exec i s = .next t) :
    (byFramer i = true ∧ SameProducerPart s t) ∨
    (byProducer i = true ∧ t.cfg = s.cfg ∧ t.tail = s.tail ∧ t.sync = s.sync) ∨
    (i = .reset ∧ t.cfg = s.cfg) ∨
    SameRecord s t := by
  cases instr_byOwner i with
  | rxStep o =>
    rw [exec_toInstr] at h
    exact .inl ⟨by cases o <;> rfl, runOutcome_sameProducerPart h⟩
  | rxDrain => exact .inl ⟨rfl, drainLoop_sameProducerPart h⟩
  | rxWrite v =>
    refine .inr (.inl ⟨rfl, ?_⟩)
    obtain ⟨-, ⟨-, -, rfl⟩ | rfl⟩ := execRxWrite_next h
    · exact ⟨rfl, rfl, rfl⟩
    · exact ⟨rfl, rfl, rfl⟩
  | reset =>
    cases h
    exact .inr (.inr (.inl ⟨rfl, rfl⟩))
  | plRead k =>
    obtain ⟨n, b, -, -, -, rfl⟩ := readPayload_next h
    exact .inr (.inr (.inr (sameRecord_respond s _)))
  | other hother => exact .inr (.inr (.inr ((hother s).of_eq_next h)))

/-! ### Right after reset -/

/-- A cell of a ring in which nothing has been written has no value (R36). -/
theorem readCell_of_empty {s : State} {a : Nat} (hb : s.buf = []) (ha : a < s.cfg.capacity) :
    s.readCell a = .error (.unwrittenCell a) := by
  simp [State.readCell, ha, hb, Memory.read]

/-! ### The obligations -/

/-- Settles O51: the step's outcome in a state of the invariant is no fault, and its next state is one of the invariant. -/
theorem everyStepKeepsTheInvariant : Obligations.EveryStepKeepsTheInvariant := by
  intro s t h ht
  exact h.step_answers.of_eq_next ht

/-- Settles O54: the fetch reads written cells of the ring only, and so does every operation. -/
theorem noStepReadsAnUnwrittenCell : Obligations.NoStepReadsAnUnwrittenCell := by
  intro s f h
  exact h.step_answers.ne_fault f

/-- Settles O23, from the two cases of the fill. -/
theorem statusOutputsDescribeTheRing : Obligations.StatusOutputsDescribeTheRing := by
  intro s h
  have hcap : 2 ≤ s.cfg.capacity := h.cfgValid.1
  have hempty := rxEmpty_iff h.headInRing h.tailInRing
  have hready := rxReady_eq_false_iff h.headInRing
  refine ⟨?_, ?_, hempty, hready, fill_eq_full_iff h.headInRing h.tailInRing, fun he => ?_⟩
  · rcases fill_cases h.headInRing h.tailInRing with ⟨hle, e⟩ | ⟨hlt, e⟩
    · rw [e, if_pos hle]
    · rw [e, if_neg (by omega)]
  · exact Nat.le_sub_one_of_lt (fill_lt (by omega))
  · by_contra hn
    have hfull := hready.1 (by simpa using hn)
    have hzero := hempty.1 he
    omega

/-- Settles O55: by the owner of the operation. -/
theorem ownersAloneWriteTheRecord : Obligations.OwnersAloneWriteTheRecord := by
  intro i s t h
  rcases exec_writes h with ⟨hi, e⟩ | ⟨hi, hcfg, htail, hsync⟩ | ⟨hi, hcfg⟩ | e
  · exact ⟨e.cfg, fun _ _ => ⟨e.head, e.buf, e.accepted, readCell_congr e.cfg e.buf⟩,
      fun _ hn => absurd hi (by simp [hn])⟩
  · exact ⟨hcfg, fun _ hn => absurd hi (by simp [hn]), fun _ _ => ⟨htail, hsync⟩⟩
  · exact ⟨hcfg, fun hn => absurd hi hn, fun hn => absurd hi hn⟩
  · exact ⟨e.cfg, fun _ _ => ⟨e.head, e.buf, e.accepted, readCell_congr e.cfg e.buf⟩, fun _ _ => ⟨e.tail, e.sync⟩⟩

/-- Settles O1: the cells have no value because none is written, and the rest are the values of the reset state. -/
theorem resetStateHoldsTheResetValues : Obligations.ResetStateHoldsTheResetValues :=
  ⟨rfl, rfl, rfl, rfl, fun _ ha => readCell_of_empty rfl ha, by decide, by decide, by decide, by decide⟩

/-- Settles O3. -/
theorem resetLeavesTheRestAlone : Obligations.ResetLeavesTheRestAlone := by
  intro s t h
  cases h
  exact ⟨rfl, rfl, rfl, rfl, rfl, rfl, rfl⟩

/-- Settles O50: RESET leads from the reset state to itself, and nothing has been accepted, buffered or reported. -/
theorem resetMeetsTheInvariant : Obligations.ResetMeetsTheInvariant :=
  ⟨inv_of_reset (s := State.reset) (by decide) rfl, [], rfl, rfl⟩

end Sys2Proof.Machine
end

section
/-! The ring under RX.WRITE and inside a delivery (20_memory.md): an accepted write appends to the buffered bytes, and the payload
reads of a delivery are answered with the bytes of the Telegram. -/

namespace Sys2Proof.Machine

/-! ### RX.WRITE and the buffered bytes -/

/-- Two RingReads, the second from where the first ends, are one (R52). -/
theorem ringRead_append {s : State} {a n m : Nat} {bs cs : List Byte} (hb : s.ringRead a n = .ok bs)
    (hc : s.ringRead (a + n) m = .ok cs) : s.ringRead a (n + m) = .ok (bs ++ cs) := by
  obtain ⟨rfl, hbs⟩ := (ringRead_eq_ok_iff _ _ _ _).1 hb
  obtain ⟨rfl, hcs⟩ := (ringRead_eq_ok_iff _ _ _ _).1 hc
  refine (ringRead_eq_ok_iff _ _ _ _).2 ⟨List.length_append, fun k hk => ?_⟩
  rcases Nat.lt_or_ge k bs.length with hlt | hge
  · rw [List.getElem_append_left hlt]
    exact hbs k hlt
  · obtain ⟨j, rfl⟩ := Nat.exists_eq_add_of_le hge
    rw [List.getElem_append_right hge, ← Nat.add_assoc]
    simpa using hcs j (by simpa using hk)

/-- What the room of R54 means: the bytes leave one cell free and do not pass the end of `BUF`. -/
theorem fits_of_le_rxSpace {s : State} (hh : s.head < s.cfg.capacity) {n : Nat} (h : n ≤ s.rxSpace) :
    s.fill + n < s.cfg.capacity ∧ s.head + n ≤ s.cfg.capacity := by
  have hfill : s.fill < s.cfg.capacity := fill_lt (by omega)
  rw [State.rxSpace] at h
  omega

theorem readCell_store_inside {s : State} {v : List Byte} {k : Nat} (hk : k < v.length)
    (h : s.head + k < s.cfg.capacity) : (s.store v).readCell (s.head + k) = .ok v[k] :=
  readCell_of_read h (Memory.read_writeBytes_inside v s.buf s.head k hk)

theorem readCell_store_outside {s : State} {v : List Byte} {a : Nat} (h : a < s.head ∨ s.head + v.length ≤ a) :
    (s.store v).readCell a = s.readCell a := by
  have hread : (s.buf.writeBytes s.head v).read a = s.buf.read a :=
    h.elim (Memory.read_writeBytes_below v s.buf) (Memory.read_writeBytes_above v s.buf)
  simp only [State.readCell, State.store, hread]

/-- A buffered cell lies outside the range an accepted write fills (R55): the write ends before it meets `tail`. -/
theorem wrap_tail_add_outside {s : State} (hh : s.head < s.cfg.capacity) (ht : s.tail < s.cfg.capacity) {n k : Nat}
    (hn : s.fill + n < s.cfg.capacity) (hk : k < s.fill) :
    s.wrap (s.tail + k) < s.head ∨ s.head + n ≤ s.wrap (s.tail + k) := by
  rcases fill_cases hh ht with ⟨hle, hfill⟩ | ⟨hlt, hfill⟩
  · rw [wrap_of_lt s (by omega)]
    omega
  · rcases Nat.lt_or_ge (s.tail + k) s.cfg.capacity with hin | hout
    · rw [wrap_of_lt s hin]
      omega
    · have hcell : s.wrap (s.tail + k) = s.tail + k - s.cfg.capacity := by
        rw [State.wrap, Nat.mod_eq_sub_mod hout, Nat.mod_eq_of_lt (by omega)]
      omega

/-- Stored bytes that fit stand behind the buffered ones, which keep their values (R55, R60, R62). -/
theorem buffered_store {s : State} (hh : s.head < s.cfg.capacity) (ht : s.tail < s.cfg.capacity) {v bs : List Byte}
    (hv : v.length ≤ s.rxSpace) (hb : s.buffered = .ok bs) : (s.store v).buffered = .ok (bs ++ v) := by
  obtain ⟨hroom, hend⟩ := fits_of_le_rxSpace hh hv
  obtain ⟨hlen, hcells⟩ := (ringRead_eq_ok_iff _ _ _ _).1 hb
  have hold : (s.store v).ringRead s.tail s.fill = .ok bs :=
    (ringRead_eq_ok_iff _ _ _ _).2 ⟨hlen, fun k hk => by
      rw [← hcells k hk]
      exact readCell_store_outside (wrap_tail_add_outside hh ht hroom (by omega))⟩
  have hnew : (s.store v).ringRead s.head v.length = .ok v :=
    (ringRead_eq_ok_iff _ _ _ _).2 ⟨rfl, fun k hk => by
      have hin : s.head + k < s.cfg.capacity := by omega
      rw [wrap_of_lt (s.store v) hin]
      exact readCell_store_inside hk hin⟩
  have hbehind : (s.store v).ringRead (s.tail + s.fill) v.length = .ok v := by
    rw [← hnew, ← wrap_tail_fill hh ht]
    exact (ringRead_wrap (s.store v) (s.tail + s.fill) v.length).symm
  rw [State.buffered, fill_store hroom]
  exact ringRead_append hold hbehind

/-! ### The delivery of a Telegram -/

/-- The framer's fetch of a whole candidate (R64): the length byte says how much to read, and all of it is buffered. -/
theorem rxFetch_of_candidate {s : State} {type length : Byte} {rest : List Byte} (hs : s.sync = .awaitHeader)
    (hfill : frameSize length ≤ s.fill) (hr : s.ringRead s.tail (frameSize length) = .ok (type :: length :: rest)) :
    rxFetch s = .ok (type :: length :: rest) := by
  obtain ⟨-, hcells⟩ := (ringRead_eq_ok_iff _ _ _ _).1 hr
  have hlength : s.readCell (s.wrap (s.tail + 1)) = .ok length := hcells 1 (by simp)
  have hfour : ¬ s.fill < 4 := by
    rw [frameSize] at hfill
    omega
  simp only [rxFetch, hs, if_neg hfour, hlength, if_neg (Nat.not_lt.2 hfill), hr]

/-- A candidate with a right checksum at `tail` is delivered and consumed (R162). -/
theorem execRxStepFrameok_of_candidate {s : State} {f : Candidate} {hi lo : Byte} (hs : s.sync = .awaitHeader)
    (hfill : frameSize f.length ≤ s.fill) (hp : f.payload.length = f.length.toNat) (hrecv : f.recv = beHalf hi lo)
    (hr : s.ringRead s.tail (frameSize f.length) = .ok (f.type :: f.length :: (f.payload ++ [hi, lo])))
    (hck : f.computed s.cfg.ckInit = f.recv) :
    execRxStepFrameok s = .next ((deliver f s).consume (frameSize f.length) .awaitSync1) := by
  have hparse : parseCandidate (f.type :: f.length :: (f.payload ++ [hi, lo])) = some f :=
    (parseCandidate_eq_some_iff _ _).2 ⟨hi, lo, [], rfl, hp, hrecv⟩
  have hselected : decodeStream s.cfg .awaitHeader (f.type :: f.length :: (f.payload ++ [hi, lo])) = .frameok := by
    simp only [decodeStream, hparse, if_pos hck]
  simp only [execRxStepFrameok, whenSelected, rxFetch_of_candidate hs hfill hr, hs, hselected, if_true, hparse]

/-- While a Telegram is delivered its payload stands in the ring from two cells behind `tail` on (R66, R167). -/
theorem readCell_payload {s : State} {type length : Byte} {payload check : List Byte} {n : Nat}
    (hr : s.ringRead s.tail n = .ok (type :: length :: (payload ++ check))) (k : Nat) (hk : k < payload.length) :
    s.readCell (s.wrap (s.tail + 2 + k)) = .ok payload[k] := by
  obtain ⟨-, hcells⟩ := (ringRead_eq_ok_iff _ _ _ _).1 hr
  have hcell := hcells (k + 2) (by simp; omega)
  rw [show s.tail + 2 + k = s.tail + (k + 2) by omega, hcell]
  simp [List.getElem_append_left hk]

/-- The requests a delivery takes off the ports and the answers it gives: the payload reads that stand next and lie inside the
payload, each with the payload's byte (R66, R167; log 6). -/
theorem deliver_serves {s : State} {f : Candidate} (hp : f.payload.length = f.length.toNat)
    (hcells : ∀ k (h : k < f.payload.length), s.readCell (s.wrap (s.tail + 2 + k)) = .ok f.payload[k]) :
    ∃ ks : List Nat,
      (deliver f s).results = s.results ++ (ks.map fun k => .payloadByte (f.payload.getD k 0)) ∧
      s.inputs = (ks.map fun k => .port (.pl k)) ++ (deliver f s).inputs ∧
      (∀ k ∈ ks, k < f.length.toNat) ∧
      (∀ k later, (deliver f s).inputs = .port (.pl k) :: later → f.length.toNat ≤ k) := by
  obtain ⟨ks, later, hserved, hinputs, hinside, hnext⟩ :=
    serveReads_open f.length.toNat f.payload hp s.inputs (openDelivery f s) rfl rfl hcells
  have hdeliver : deliver f s = closeDelivery (serveReads s.inputs (openDelivery f s)) := rfl
  rw [hdeliver, hserved]
  exact ⟨ks, rfl, hinputs, hinside, hnext⟩

/-! ### The obligations -/

/-- Settles O22: the write is accepted, and what it stores stands behind the buffered bytes. -/
theorem rxWriteAppendsToTheStream : Obligations.RxWriteAppendsToTheStream := by
  intro s t v bs h hb hne hroom hchunk ht
  have haccepted : exec (.rxWrite v) s = .next (s.store v) := execRxWrite_accepted hne hroom hchunk
  obtain rfl : s.store v = t := by simpa [haccepted] using ht
  exact ⟨buffered_store h.headInRing h.tailInRing hroom hb, fill_store (fits_of_le_rxSpace h.headInRing hroom).1⟩

/-- Settles O15: FRAMEOK delivers the candidate, and the delivery answers from the cells the candidate was read from. -/
theorem payloadReadsAreServedInTheDelivery : Obligations.PayloadReadsAreServedInTheDelivery := by
  intro s type length hi lo payload hs hfill hp hr hck
  have hexec := execRxStepFrameok_of_candidate (f := ⟨type, length, payload, beHalf hi lo⟩) hs hfill hp rfl hr hck
  obtain ⟨ks, hserved⟩ := deliver_serves (f := ⟨type, length, payload, beHalf hi lo⟩) hp (readCell_payload hr)
  exact ⟨_, ks, hexec, hserved⟩

end Sys2Proof.Machine
end

section
/-! The decoder beside the encoder (30_encoding.md R80 to R84, R94, R95): what a built frame is read back as, in the stream and as
an image, and the step that runs what is decoded. -/

namespace Sys2Proof.Machine

/-! ### The check bytes -/

theorem hiByte_beHalf (hi lo : Byte) : hiByte (beHalf hi lo) = hi := by
  ext i hlt
  simp [hiByte, beHalf, hlt, show 8 + i < 16 by omega]

/-- Check bytes with the high one inverted are another checksum (R84). -/
theorem beHalf_not_hiByte_ne (x : Half) : beHalf (~~~hiByte x) (loByte x) ≠ x := by
  intro h
  have hinverted : ~~~hiByte x = hiByte x := by rw [← hiByte_beHalf (~~~hiByte x) (loByte x), h]
  have hnat := congrArg BitVec.toNat hinverted
  rw [BitVec.toNat_not] at hnat
  omega

/-! ### The frame read back -/

/-- The length byte of a payload that fits in one (R89). -/
theorem toNat_lengthByte {payload : List Byte} (h : payload.length < 256) :
    (BitVec.ofNat 8 payload.length).toNat = payload.length := by
  rw [BitVec.toNat_ofNat]
  exact Nat.mod_eq_of_lt h

/-- A payload the encoder takes has a length of one byte (R11, R89). -/
theorem length_lt_of_le_maxPayload {c : Config} (hc : c.Valid) {payload : List Byte} (h : payload.length ≤ c.maxPayload) :
    payload.length < 256 := by
  obtain ⟨-, -, hmax, -⟩ := hc
  rw [Config.maxPayload] at h
  omega

/-- A body and two check bytes, whatever follows them, are cut out as the candidate with those fields (R81, R97). -/
theorem parseCandidate_frameBody {payload : List Byte} (h : payload.length < 256) (type hi lo : Byte) (extra : List Byte) :
    parseCandidate (frameBody type payload ++ hi :: lo :: extra) =
      some ⟨type, BitVec.ofNat 8 payload.length, payload, beHalf hi lo⟩ :=
  (parseCandidate_eq_some_iff _ _).2 ⟨hi, lo, extra, rfl, (toNat_lengthByte h).symm, rfl⟩

/-- The tail of a built frame is cut out with the checksum that was put in (R84, R131). -/
theorem parseCandidate_frameTail (init : CkInit) (type : Byte) {payload : List Byte} (h : payload.length < 256)
    (extra : List Byte) :
    parseCandidate (frameTail init type payload ++ extra) =
      some ⟨type, BitVec.ofNat 8 payload.length, payload, f16 init (frameBody type payload)⟩ := by
  have hparse := parseCandidate_frameBody h type (hiByte (f16 init (frameBody type payload)))
    (loByte (f16 init (frameBody type payload))) extra
  rw [beHalf_hiByte_loByte] at hparse
  rw [← hparse, frameTail, List.append_assoc]
  rfl

/-- A candidate is a valid frame or a bad one by its checksum alone (R96, R161). -/
theorem decodeStream_of_candidate (c : Config) {bytes : List Byte} {f : Candidate} (h : parseCandidate bytes = some f) :
    decodeStream c .awaitHeader bytes = if f.computed c.ckInit = f.recv then .frameok else .framebad := by
  simp only [decodeStream, h]

theorem decodeStream_frameTail (c : Config) (type : Byte) {payload : List Byte} (h : payload.length < 256)
    (extra : List Byte) : decodeStream c .awaitHeader (frameTail c.ckInit type payload ++ extra) = .frameok := by
  rw [decodeStream_of_candidate c (parseCandidate_frameTail c.ckInit type h extra)]
  exact if_pos rfl

/-- A frame whose high check byte is inverted is a bad one (R163). -/
theorem decodeStream_inverted_check (c : Config) (type : Byte) {payload : List Byte} (h : payload.length < 256) :
    decodeStream c .awaitHeader (frameBody type payload ++
      [~~~hiByte (f16 c.ckInit (frameBody type payload)), loByte (f16 c.ckInit (frameBody type payload))]) = .framebad := by
  rw [decodeStream_of_candidate c (parseCandidate_frameBody h type _ _ [])]
  exact if_neg fun hck => beHalf_not_hiByte_ne _ hck.symm

/-- An image with both markers and the size its length byte gives is read as the encode request it pictures (R80, R82). -/
theorem decodeFrame_of_size (c : Config) (type length : Byte) {rest : List Byte} (h : rest.length = length.toNat + 2) :
    decodeFrame c (syncByte :: syncByte :: type :: length :: rest) = .ok (decodeEnc c type (rest.take length.toNat)) := by
  simp only [decodeFrame, and_self, if_true, h]

/-- The image of a frame pictures the request for its type and payload, whatever its check bytes are (R80, R131). -/
theorem decodeFrame_frameBody (c : Config) (type hi lo : Byte) {payload : List Byte} (h : payload.length < 256) :
    decodeFrame c (syncByte :: syncByte :: (frameBody type payload ++ [hi, lo])) = .ok (decodeEnc c type payload) := by
  have hsize : (payload ++ [hi, lo]).length = (BitVec.ofNat 8 payload.length).toNat + 2 := by
    rw [toNat_lengthByte h, List.length_append]
    rfl
  have hread := decodeFrame_of_size c type (BitVec.ofNat 8 payload.length) hsize
  rw [toNat_lengthByte h, List.take_left] at hread
  exact hread

theorem decodeFrame_wireFrame (c : Config) (init : CkInit) (type : Byte) {payload : List Byte} (h : payload.length < 256) :
    decodeFrame c (wireFrame init type payload) = .ok (decodeEnc c type payload) :=
  decodeFrame_frameBody c type _ _ h

/-! ### The obligations -/

/-- Settles O6: the stream operations by the fields of the frame the encoder writes for them, TX.ENCODE by reading its frame back,
the others by their ports; the operand checks decide the two limits of port `enc` and the empty write. -/
theorem decodeEncodeAgree : Obligations.DecodeEncodeAgree := by
  intro c hc i hwf
  cases i with
  | rxStepS1hit => rfl
  | rxStepS1miss => rfl
  | rxStepS2hit => rfl
  | rxStepS2miss => rfl
  | rxStepStopempty => rfl
  | rxStepHdrwait => rfl
  | rxStepFrameok =>
    have hok := decodeStream_frameTail c 0x00 (payload := []) (by decide) []
    rw [List.append_nil] at hok
    simp only [encode, decode, hok, RxOutcome.toInstr]
  | rxStepFramebad =>
    have hbad := decodeStream_inverted_check c 0x00 (payload := []) (by decide)
    simp only [encode, decode, hbad, RxOutcome.toInstr]
  | txEncode type payload =>
    have hfits : payload.length ≤ c.maxPayload := of_decide_eq_true hwf
    simp only [encode, decode, decodeFrame_wireFrame c c.ckInit type (length_lt_of_le_maxPayload hc hfits), decodeEnc,
      if_pos hfits]
  | txEncodeToolarge type n =>
    have hlarge : ¬ n ≤ c.maxPayload := Nat.not_le.2 (of_decide_eq_true hwf)
    simp only [encode, decode, decodeRequest, decodeEnc, List.length_replicate, if_neg hlarge]
  | rxWrite v =>
    cases v with
    | nil => exact nomatch hwf
    | cons b v => rfl
  | txWrite frame answer => rfl
  | ckF16 d => rfl
  | rxDrain => rfl
  | plRead k => rfl
  | fxBe16 b0 b1 => rfl
  | fxBe32 b0 b1 b2 b3 => rfl
  | fxMilli w f => rfl
  | fxGauge v => rfl
  | fxCounter ip fp => rfl
  | fxDigits3 f => rfl
  | fxRound11 x => rfl
  | reset => rfl

/-- Settles O7: the marker bytes by the sync states, the rest by the candidate cut out of the frame's tail. -/
theorem builtFramesAreReadBack : Obligations.BuiltFramesAreReadBack := by
  intro c hc type payload extra hfits
  have hlen := length_lt_of_le_maxPayload hc hfits
  exact ⟨rfl, rfl, decodeStream_frameTail c type hlen extra, parseCandidate_frameTail c.ckInit type hlen extra⟩

/-- Settles O4: the fetch by the first move of the list, then the decoded operation. -/
theorem stepRunsTheDecodedOperation : Obligations.StepRunsTheDecodedOperation := by
  intro s i
  refine ⟨fun r later hinputs hdecode => ?_, fun later bytes hinputs hfetch hdecode => ?_,
    fun bytes hinputs hfetch hdecode => ?_⟩
  · simp only [step, fetch, hinputs, hdecode]
  · simp only [step, fetch, hinputs, hfetch, hdecode]
  · simp only [step, fetch, hinputs, hfetch, hdecode]

/-- Settles O5: the decoder evaluated on the written-out bytes. -/
theorem writtenOutBytesDecode : Obligations.WrittenOutBytesDecode := by
  refine ⟨?_, ?_, ?_, ?_, ?_, ?_, ?_, ?_⟩ <;> decide

end Sys2Proof.Machine
end

section
/-! The loops over RX (30_encoding.md R99, 42_rx_framer.md R165): RX.DRAIN goes through the buffered bytes as `parse` does, and
RX.FEED writes all its bytes, because a drained ring of at least 260 cells has room. -/

namespace Sys2Proof.Machine

/-! ### RX.DRAIN -/

/-- The hunt for a marker stops only where no byte is left (R158). -/
theorem eq_nil_of_isStop {c : Config} {st : SyncState} {bs : List Byte} (hst : st ≠ .awaitHeader)
    (hstop : (decodeStream c st bs).isStop = true) : bs = [] := by
  cases bs with
  | nil => rfl
  | cons b bs =>
    cases st with
    | awaitSync1 => by_cases hb : b = syncByte <;> simp [decodeStream, hb, RxOutcome.isStop] at hstop
    | awaitSync2 => by_cases hb : b = syncByte <;> simp [decodeStream, hb, RxOutcome.isStop] at hstop
    | awaitHeader => exact absurd rfl hst

/-- In AwaitHeader the decoder stops only where no candidate is complete (R159). -/
theorem parseCandidate_eq_none_of_isStop {c : Config} {bs : List Byte}
    (hstop : (decodeStream c .awaitHeader bs).isStop = true) : parseCandidate bs = none := by
  cases hc : parseCandidate bs with
  | none => rfl
  | some f => by_cases hck : f.computed c.ckInit = f.recv <;> simp [decodeStream, hc, hck, RxOutcome.isStop] at hstop

/-- Where the decoder stops on the buffered bytes, no *continue* outcome is enabled (R279). -/
theorem quiescent_of_isStop {s : State} {bs : List Byte} (hb : s.buffered = .ok bs)
    (hstop : (decodeStream s.cfg s.sync bs).isStop = true) : Quiescent s := by
  obtain ⟨hlen, hcells⟩ := (ringRead_eq_ok_iff _ _ _ _).1 hb
  by_cases hs : s.sync = .awaitHeader
  · refine .inr ⟨hs, ?_⟩
    rw [hs] at hstop
    have hnone := parseCandidate_eq_none_of_isStop hstop
    match bs with
    | [] => exact .inl (by simp [← hlen])
    | [_] => exact .inl (by simp [← hlen])
    | type :: length :: rest =>
      have hshort := (parseCandidate_eq_none_iff _).1 hnone type length rest rfl
      refine .inr ⟨length, hcells 1 (by simp), ?_⟩
      rw [← hlen, frameSize]
      simp only [List.length_cons]
      omega
  · exact .inl ⟨hs, by simp [← hlen, eq_nil_of_isStop hs hstop]⟩

/-- From `s` to `t` the framer has gone through `bs` as `parse` does: its events are appended, its sync state is reached and its
residue is buffered (R170). -/
def Framed (s : State) (bs : List Byte) (t : State) : Prop :=
  ∃ es rs, parse s.cfg.ckInit s.sync bs = ⟨es, t.sync, rs⟩ ∧ t.out = s.out ++ es ∧ t.buffered = .ok rs

/-- Bytes that arrive behind the residue go on where the framer stands (R170). -/
theorem Framed.append {s t u : State} {bs ex : List Byte} (h : Framed s bs t) (hcfg : t.cfg = s.cfg)
    (h' : ∀ rs, t.buffered = .ok rs → Framed t (rs ++ ex) u) : Framed s (bs ++ ex) u := by
  obtain ⟨es, rs, hparse, hout, hrs⟩ := h
  obtain ⟨es', rs', hparse', hout', hrs'⟩ := h' rs hrs
  have happend := parse_append s.cfg s.sync bs ex
  rw [hcfg] at hparse'
  simp only [hparse, hparse'] at happend
  exact ⟨es ++ es', rs', happend, by rw [hout', hout, List.append_assoc], hrs'⟩

/-- With a round for every buffered byte and one more, the drain loop ends in a *stop*, behind everything `parse` consumes
(R164, R165). -/
theorem drainLoop_framed {n : Nat} {s : State} {bs : List Byte} (h : Inv s) (hb : s.buffered = .ok bs) (hn : bs.length < n) :
    ∃ t, drainLoop n s = .next t ∧ Quiescent t ∧ Framed s bs t := by
  induction n generalizing s bs with
  | zero => omega
  | succ n ih =>
    obtain ⟨ho, hstop, hgo⟩ := rxStep_of_buffered h hb
    cases hs : (decodeStream s.cfg s.sync bs).isStop with
    | true =>
      refine ⟨s, ?_, quiescent_of_isStop hb hs, [], bs, parse_stop s.cfg s.sync bs hs, (List.append_nil _).symm, hb⟩
      rw [drainLoop_succ ho (hstop hs), if_pos hs]
    | false =>
      obtain ⟨u, hu, hinv, hbu, hout, hsync, hcfg, -⟩ := hgo hs
      obtain ⟨hpos, hle, hparse⟩ := parse_go s.cfg s.sync bs hs
      obtain ⟨t, ht, hq, es, rs, hparse', hout', hrs⟩ := ih hinv hbu (by rw [List.length_drop]; omega)
      rw [hcfg, hsync] at hparse'
      simp only [hparse'] at hparse
      refine ⟨t, ?_, hq, _, rs, hparse, by rw [hout', hout, List.append_assoc], hrs⟩
      rw [drainLoop_succ ho hu, if_neg (by simp [hs]), ht]

/-- RX.DRAIN runs to a *stop* and leaves PROD's part of the record alone (R27, R165). -/
theorem execRxDrain_framed {s : State} {bs : List Byte} (h : Inv s) (hb : s.buffered = .ok bs) :
    ∃ t, execRxDrain s = .next t ∧ Inv t ∧ Quiescent t ∧ SameProducerPart s t ∧ Framed s bs t := by
  obtain ⟨t, ht, hq, hframed⟩ := drainLoop_framed h hb (Nat.lt_succ_of_le (buffered_length hb).le)
  exact ⟨t, ht, h.execRxDrain_answers.of_eq_next ht, hq, drainLoop_sameProducerPart ht, hframed⟩

/-! ### RX.FEED -/

theorem store_nil {s : State} (hh : s.head < s.cfg.capacity) : s.store [] = s := by
  simp [State.store, Memory.writeBytes, wrap_of_lt s hh]

/-- PROD's part of a round, with or without room, stores the bytes that fit (R99; log 12). -/
theorem feedWrite_of_fits {s : State} {v : List Byte} (hh : s.head < s.cfg.capacity) (hroom : v.length ≤ s.rxSpace)
    (hchunk : v.length ≤ s.cfg.rxChunk) : feedWrite v s = .next (s.store v) := by
  unfold feedWrite
  split_ifs with hv
  · rw [List.isEmpty_iff.1 hv, store_nil hh]
  · exact execRxWrite_accepted (List.length_pos_iff.2 (by simpa using hv)) hroom hchunk

/-- What RX.FEED makes of `s` by writing `v` and draining: the bytes are accepted, the framer has gone through them, and the block
is quiescent. -/
structure Fed (s : State) (v : List Byte) (t : State) : Prop where
  inv : Inv t
  quiescent : Quiescent t
  cfg : t.cfg = s.cfg
  accepted : t.accepted = s.accepted ++ v
  framed : ∀ bs, s.buffered = .ok bs → Framed s (bs ++ v) t

theorem Fed.trans {s t u : State} {v w : List Byte} (h : Fed s v t) (h' : Fed t w u) : Fed s (v ++ w) u where
  inv := h'.inv
  quiescent := h'.quiescent
  cfg := h'.cfg.trans h.cfg
  accepted := by rw [h'.accepted, h.accepted, List.append_assoc]
  framed bs hb := by
    rw [← List.append_assoc]
    exact (h.framed bs hb).append h.cfg h'.framed

/-- One round of RX.FEED, with or without room: the bytes that fit are fed and the others remain (R99; log 12). -/
theorem feedRounds_round {s : State} (h : Inv s) {v : List Byte} (hv : v ≠ []) (n : Nat) :
    ∃ u, Fed s (v.take (s.feedSize v.length)) u ∧
      feedRounds (n + 1) v s = feedRounds n (v.drop (s.feedSize v.length)) u := by
  have hlen : (v.take (s.feedSize v.length)).length ≤ min s.rxSpace s.cfg.rxChunk := by
    rw [List.length_take, State.feedSize]
    omega
  have hroom := Nat.le_trans hlen (Nat.min_le_left _ _)
  have hwrite := feedWrite_of_fits h.headInRing hroom (Nat.le_trans hlen (Nat.min_le_right _ _))
  obtain ⟨bs, hb⟩ := h.buffered_ok
  obtain ⟨u, hu, hinv, hq, hsame, hframed⟩ :=
    execRxDrain_framed (h.store hroom) (buffered_store h.headInRing h.tailInRing hroom hb)
  refine ⟨u, ⟨hinv, hq, hsame.cfg, hsame.accepted, fun bs' hb' => ?_⟩, feedRounds_succ hv hwrite hu⟩
  obtain rfl : bs = bs' := Except.ok.inj (hb.symm.trans hb')
  exact hframed

/-- A quiescent ring of at least 260 cells has room: what waits is shorter than a frame (R7, R175). -/
theorem rxSpace_pos_of_quiescent {s : State} (h : Inv s) (hd : s.cfg.DeadlockFree) (hq : Quiescent s) : 0 < s.rxSpace := by
  have hhead := h.headInRing
  have hfill : s.fill < 259 := by
    rcases hq with ⟨-, hzero⟩ | ⟨-, hfew | ⟨length, -, hshort⟩⟩
    · omega
    · omega
    · have := length.isLt
      rw [frameSize] at hshort
      omega
  rw [State.rxSpace]
  omega

theorem feedSize_pos {s : State} (h : Inv s) (hroom : 0 < s.rxSpace) {n : Nat} (hn : 0 < n) : 0 < s.feedSize n := by
  obtain ⟨-, -, -, hchunk⟩ := h.cfgValid
  rw [State.feedSize]
  omega

/-- From a quiescent ring of at least 260 cells every round feeds at least one byte, so as many rounds as bytes feed them all. -/
theorem feedRounds_fed {n : Nat} {s₀ s : State} {w v : List Byte} (hd : s₀.cfg.DeadlockFree) (h : Fed s₀ w s)
    (hn : v.length ≤ n) :
    ∃ t, feedRounds n v s = .next t ∧ Fed s₀ (w ++ v) t := by
  induction n generalizing s w v with
  | zero =>
    obtain rfl : v = [] := List.length_eq_zero_iff.1 (Nat.le_zero.1 hn)
    exact ⟨s, rfl, by rwa [List.append_nil]⟩
  | succ n ih =>
    by_cases hv : v = []
    · subst hv
      exact ⟨s, rfl, by rwa [List.append_nil]⟩
    · obtain ⟨u, hu, hround⟩ := feedRounds_round h.inv hv n
      have hroom : 0 < s.rxSpace := rxSpace_pos_of_quiescent h.inv (by rwa [h.cfg]) h.quiescent
      have hsize := feedSize_pos h.inv hroom (List.length_pos_iff.2 hv)
      obtain ⟨t, ht, hfed⟩ := ih (h.trans hu) (v := v.drop (s.feedSize v.length)) (by rw [List.length_drop]; omega)
      rw [List.append_assoc, List.take_append_drop] at hfed
      exact ⟨t, hround.trans ht, hfed⟩

/-- RX.FEED of some bytes feeds them all: only the first round can find no room, and it drains (R99; log 12). -/
theorem rxFeed_fed {s : State} (h : Inv s) (hd : s.cfg.DeadlockFree) {v : List Byte} (hv : v ≠ []) :
    ∃ t, rxFeed v s = .next t ∧ Fed s v t := by
  obtain ⟨u, hu, hround⟩ := feedRounds_round h hv v.length
  have hrest : (v.drop (s.feedSize v.length)).length ≤ v.length := (List.drop_sublist _ v).length_le
  obtain ⟨t, ht, hfed⟩ := feedRounds_fed hd hu hrest
  rw [List.take_append_drop] at hfed
  exact ⟨t, hround.trans ht, hfed⟩

/-! ### The obligation -/

/-- Settles O35: the rounds feed all the bytes, and what they make of the state is read off `Fed`. -/
theorem rxFeedWritesEverything : Obligations.RxFeedWritesEverything := by
  intro s v bs h hd hb
  refine ⟨fun hv => by rw [hv]; rfl, fun hv => ?_⟩
  obtain ⟨t, ht, hfed⟩ := rxFeed_fed h hd hv
  obtain ⟨es, rs, hparse, hout, hrs⟩ := hfed.framed bs hb
  rw [hparse]
  exact ⟨t, ht, hfed.accepted, hfed.quiescent, hout, rfl, hrs⟩

end Sys2Proof.Machine
end

section
/-! CK (40_checksum.md): one fold, the checksum loop as the closed form of R115, and what the closed form says about `CK_INIT` and
about one changed byte. -/

namespace Sys2Proof.Machine

/-! ### One fold -/

/-- A fold keeps the residue modulo 255 (R112). -/
theorem fold_mod_255 (s : Half) : (fold s).toNat % 255 = s.toNat % 255 := by
  rw [fold_toNat]
  omega

theorem fold_toNat_eq_zero_iff (s : Half) : (fold s).toNat = 0 ↔ s.toNat = 0 := by
  rw [fold_toNat]
  omega

/-- Two byte values added are at most `0x1FE` (R112). -/
theorem fold_toNat_le (s : Half) : (fold s).toNat ≤ 0x1FE := by
  rw [fold_toNat]
  omega

/-- The second of two folds gives a byte (R112, R113). -/
theorem fold_toNat_le_byte {s : Half} (h : s.toNat ≤ 0x1FE) : (fold s).toNat ≤ 0xFF := by
  rw [fold_toNat]
  omega

/-! ### The representative modulo 255 -/

/-- Two numbers have one representative when they agree modulo 255 and on being zero (R115). -/
theorem rep_eq_rep_iff (t u : Nat) : rep t = rep u ↔ t % 255 = u % 255 ∧ (t = 0 ↔ u = 0) := by
  obtain ⟨ht, ht0, htle⟩ := rep_spec t
  obtain ⟨hu, hu0, hule⟩ := rep_spec u
  omega

theorem rep_of_le {t : Nat} (h : t ≤ 255) : rep t = t := by
  obtain ⟨hmod, hzero, hle⟩ := rep_spec t
  omega

/-- Multiples of 255 do not show in the representative of a number that is not zero (R118). -/
theorem rep_add_mul_255 {t : Nat} (h : 0 < t) (k : Nat) : rep (t + k * 255) = rep t :=
  (rep_eq_rep_iff _ _).2 ⟨Nat.add_mul_mod_self_right t k 255, by omega⟩

/-- Multiples of 255 are represented by `0xFF`, not by 0 (R115). -/
theorem rep_mul_255 {k : Nat} (h : 0 < k) : rep (k * 255) = 255 := by
  obtain ⟨hmod, hzero, hle⟩ := rep_spec (k * 255)
  omega

theorem rep_add_congr {t t' u u' : Nat} (ht : rep t = rep t') (hu : rep u = rep u') : rep (t + u) = rep (t' + u') := by
  rw [rep_eq_rep_iff] at *
  omega

theorem rep_mul_congr (n : Nat) {t t' : Nat} (h : rep t = rep t') : rep (n * t) = rep (n * t') := by
  rw [rep_eq_rep_iff] at *
  obtain ⟨hmod, hzero⟩ := h
  exact ⟨Nat.ModEq.mul_left n hmod, by rw [Nat.mul_eq_zero, Nat.mul_eq_zero, hzero]⟩

/-- A fold keeps the representative: that is why the folds do not show in the closed form (R115). -/
theorem rep_fold (s : Half) : rep (fold s).toNat = rep s.toNat :=
  (rep_eq_rep_iff _ _).2 ⟨fold_mod_255 s, fold_toNat_eq_zero_iff s⟩

/-! ### The two sums of the bytes -/

theorem byteSum_le (bs : List Byte) : byteSum bs ≤ 255 * bs.length := by
  induction bs with
  | nil => exact Nat.zero_le _
  | cons b bs ih =>
    rw [byteSum, List.length_cons]
    omega

/-- The weights of `n` bytes add up to `n * (n + 1) / 2` (R116). -/
theorem two_mul_weightedSum_le (bs : List Byte) : 2 * weightedSum bs ≤ 255 * (bs.length * (bs.length + 1)) := by
  induction bs with
  | nil => exact Nat.zero_le _
  | cons b bs ih =>
    have hb : (bs.length + 1) * b.toNat ≤ (bs.length + 1) * 255 := Nat.mul_le_mul_left _ (by omega)
    rw [weightedSum, List.length_cons]
    linarith

/-- Every weight is at least 1. -/
theorem byteSum_le_weightedSum (bs : List Byte) : byteSum bs ≤ weightedSum bs := by
  induction bs with
  | nil => exact Nat.le_refl _
  | cons b bs ih =>
    have hb : b.toNat ≤ (bs.length + 1) * b.toNat := Nat.le_mul_of_pos_left _ (Nat.succ_pos _)
    rw [byteSum, weightedSum]
    omega

theorem byteSum_eq_zero_iff (bs : List Byte) : byteSum bs = 0 ↔ ∀ b ∈ bs, b = 0 := by
  induction bs with
  | nil => simp [byteSum]
  | cons b bs ih =>
    rw [byteSum, Nat.add_eq_zero_iff, ih, List.forall_mem_cons, ← BitVec.toNat_inj]
    rfl

theorem weightedSum_eq_zero_iff (bs : List Byte) : weightedSum bs = 0 ↔ byteSum bs = 0 := by
  refine ⟨fun h => Nat.le_zero.1 (h ▸ byteSum_le_weightedSum bs), fun h => ?_⟩
  induction bs with
  | nil => rfl
  | cons b bs ih =>
    obtain ⟨hb, hbs⟩ := Nat.add_eq_zero_iff.1 h
    rw [weightedSum, hb, ih hbs, Nat.mul_zero]

/-! ### A block and the loop -/

/-- From folded sums a block of at most `CK_BLOCK` bytes stays inside 16 bits (R116). -/
theorem block_bounds {s : Sums} {bs : List Byte} (h1 : s.sum1.toNat ≤ 0x1FE) (h2 : s.sum2.toNat ≤ 0x1FE)
    (hlen : bs.length ≤ 20) :
    s.sum1.toNat + byteSum bs ≤ 5610 ∧ s.sum2.toNat + bs.length * s.sum1.toNat + weightedSum bs ≤ 0xFB04 := by
  have hsum := byteSum_le bs
  have hweighted := two_mul_weightedSum_le bs
  have hweights : bs.length * (bs.length + 1) ≤ 20 * 21 := Nat.mul_le_mul hlen (by omega)
  have hcarried : bs.length * s.sum1.toNat ≤ 20 * 0x1FE := Nat.mul_le_mul hlen h1
  omega

theorem addBytes_toNat_of_block {s : Sums} {bs : List Byte} (h1 : s.sum1.toNat ≤ 0x1FE) (h2 : s.sum2.toNat ≤ 0x1FE)
    (hlen : bs.length ≤ 20) :
    (s.addBytes bs).sum1.toNat = s.sum1.toNat + byteSum bs ∧
    (s.addBytes bs).sum2.toNat = s.sum2.toNat + bs.length * s.sum1.toNat + weightedSum bs := by
  obtain ⟨hb1, hb2⟩ := block_bounds h1 h2 hlen
  exact addBytes_toNat bs s (by omega) (by omega)

/-- `u` is what the loop makes of folded sums `s` over the bytes `d`: folded again, and with the representatives of the sums that
are not folded at all (R115). -/
structure Summed (s : Sums) (d : List Byte) (u : Sums) : Prop where
  sum1_le : u.sum1.toNat ≤ 0x1FE
  sum2_le : u.sum2.toNat ≤ 0x1FE
  rep_sum1 : rep u.sum1.toNat = rep (s.sum1.toNat + byteSum d)
  rep_sum2 : rep u.sum2.toNat = rep (s.sum2.toNat + d.length * s.sum1.toNat + weightedSum d)

theorem Summed.nil {s : Sums} (h1 : s.sum1.toNat ≤ 0x1FE) (h2 : s.sum2.toNat ≤ 0x1FE) : Summed s [] s where
  sum1_le := h1
  sum2_le := h2
  rep_sum1 := rfl
  rep_sum2 := by simp [weightedSum]

/-- One round of the loop: a block and a fold (R111). -/
theorem Summed.block {s : Sums} {bs : List Byte} (h1 : s.sum1.toNat ≤ 0x1FE) (h2 : s.sum2.toNat ≤ 0x1FE)
    (hlen : bs.length ≤ 20) : Summed s bs (s.addBytes bs).folded := by
  obtain ⟨e1, e2⟩ := addBytes_toNat_of_block h1 h2 hlen
  exact
    { sum1_le := fold_toNat_le _
      sum2_le := fold_toNat_le _
      rep_sum1 := (rep_fold _).trans (congrArg rep e1)
      rep_sum2 := (rep_fold _).trans (congrArg rep e2) }

/-- Rounds one after the other: the second sum of the later bytes carries the first sum of the earlier ones. -/
theorem Summed.trans {s t u : Sums} {d e : List Byte} (h : Summed s d t) (h' : Summed t e u) : Summed s (d ++ e) u where
  sum1_le := h'.sum1_le
  sum2_le := h'.sum2_le
  rep_sum1 :=
    calc rep u.sum1.toNat
        = rep (t.sum1.toNat + byteSum e) := h'.rep_sum1
      _ = rep (s.sum1.toNat + byteSum d + byteSum e) := rep_add_congr h.rep_sum1 rfl
      _ = rep (s.sum1.toNat + byteSum (d ++ e)) := by rw [byteSum_append, Nat.add_assoc]
  rep_sum2 :=
    calc rep u.sum2.toNat
        = rep (t.sum2.toNat + e.length * t.sum1.toNat + weightedSum e) := h'.rep_sum2
      _ = rep (s.sum2.toNat + d.length * s.sum1.toNat + weightedSum d + e.length * (s.sum1.toNat + byteSum d) +
            weightedSum e) :=
          rep_add_congr (rep_add_congr h.rep_sum2 (rep_mul_congr e.length h.rep_sum1)) rfl
      _ = rep (s.sum2.toNat + (d ++ e).length * s.sum1.toNat + weightedSum (d ++ e)) := by
          rw [weightedSum_append, List.length_append]
          congr 1
          ring

/-- With a round for every byte the loop goes through them all (R111). -/
theorem f16Blocks_summed {fuel : Nat} {d : List Byte} {s : Sums} (hfuel : d.length ≤ fuel) (h1 : s.sum1.toNat ≤ 0x1FE)
    (h2 : s.sum2.toNat ≤ 0x1FE) : Summed s d (f16Blocks fuel d s) := by
  induction fuel generalizing d s with
  | zero =>
    obtain rfl : d = [] := List.length_eq_zero_iff.1 (Nat.le_zero.1 hfuel)
    exact .nil h1 h2
  | succ fuel ih =>
    rw [f16Blocks]
    split_ifs with hempty
    · rw [List.isEmpty_iff.1 hempty]
      exact .nil h1 h2
    · have hpos : 0 < d.length := List.length_pos_iff.2 (by simpa using hempty)
      have hblock : Summed s (d.take ckBlock) (s.addBytes (d.take ckBlock)).folded :=
        .block h1 h2 (List.length_take_le _ _)
      have hrest := ih (d := d.drop ckBlock) (by rw [List.length_drop, ckBlock]; omega) hblock.sum1_le hblock.sum2_le
      have hall := hblock.trans hrest
      rwa [List.take_append_drop] at hall

/-! ### The checksum as a number -/

/-- `T1`, the start value and the plain sum (R115). -/
def plainTotal (init : CkInit) (d : List Byte) : Nat := init.value.toNat + byteSum d

/-- `T2`, the start value for every byte and once more, and the weighted sum (R115). -/
def weightedTotal (init : CkInit) (d : List Byte) : Nat := (d.length + 1) * init.value.toNat + weightedSum d

theorem closedForm_eq (init : CkInit) (d : List Byte) :
    closedForm init d = 256 * rep (weightedTotal init d) + rep (plainTotal init d) := rfl

/-- Two byte values stand side by side in the result (R114). -/
theorem assemble_toNat {s : Sums} (h1 : s.sum1.toNat ≤ 0xFF) (h2 : s.sum2.toNat ≤ 0xFF) :
    s.assemble.toNat = 256 * s.sum2.toNat + s.sum1.toNat := by
  have hshift : (s.sum2 <<< 8).toNat = s.sum2.toNat <<< 8 := by
    rw [BitVec.toNat_shiftLeft, Nat.shiftLeft_eq, Nat.mod_eq_of_lt (by omega)]
  rw [Sums.assemble, BitVec.toNat_or, hshift, ← Nat.shiftLeft_add_eq_or_of_lt (by omega), Nat.shiftLeft_eq]
  omega

theorem ckInit_value_x00_toNat : CkInit.x00.value.toNat = 0 := rfl

theorem ckInit_value_xFF_toNat : CkInit.xFF.value.toNat = 255 := rfl

theorem ckInit_value_toNat_le (init : CkInit) : init.value.toNat ≤ 0xFF := by
  cases init <;> decide

/-- R115: the loop over 16-bit accumulators gives the two representatives. -/
theorem f16_toNat (init : CkInit) (d : List Byte) : (f16 init d).toNat = closedForm init d := by
  have hinit : init.value.toNat ≤ 0x1FE := Nat.le_trans (ckInit_value_toNat_le init) (by decide)
  have hloop := f16Blocks_summed (Nat.le_refl d.length) (s := ⟨init.value, init.value⟩) hinit hinit
  have hle1 := fold_toNat_le_byte hloop.sum1_le
  have hle2 := fold_toNat_le_byte hloop.sum2_le
  have hrep1 : (fold (f16Blocks d.length d ⟨init.value, init.value⟩).sum1).toNat = rep (plainTotal init d) := by
    rw [← rep_of_le hle1, rep_fold, hloop.rep_sum1, plainTotal]
  have hrep2 : (fold (f16Blocks d.length d ⟨init.value, init.value⟩).sum2).toNat = rep (weightedTotal init d) := by
    rw [← rep_of_le hle2, rep_fold, hloop.rep_sum2, weightedTotal]
    congr 1
    ring
  rw [f16, assemble_toNat hle1 hle2, closedForm_eq]
  simp only [Sums.folded, hrep1, hrep2]

theorem hiByte_f16_toNat (init : CkInit) (d : List Byte) : (hiByte (f16 init d)).toNat = rep (weightedTotal init d) := by
  obtain ⟨-, -, hlo⟩ := rep_spec (plainTotal init d)
  obtain ⟨-, -, hhi⟩ := rep_spec (weightedTotal init d)
  rw [hiByte, BitVec.extractLsb'_toNat, f16_toNat, closedForm_eq, Nat.shiftRight_eq_div_pow]
  omega

theorem loByte_f16_toNat (init : CkInit) (d : List Byte) : (loByte (f16 init d)).toNat = rep (plainTotal init d) := by
  obtain ⟨-, -, hlo⟩ := rep_spec (plainTotal init d)
  rw [loByte, BitVec.extractLsb'_toNat, f16_toNat, closedForm_eq, Nat.shiftRight_zero]
  omega

/-- Two checksums are equal when their totals have the same representatives (R115). -/
theorem f16_eq_f16_iff (init init' : CkInit) (d d' : List Byte) :
    f16 init d = f16 init' d' ↔
      rep (plainTotal init d) = rep (plainTotal init' d') ∧ rep (weightedTotal init d) = rep (weightedTotal init' d') := by
  obtain ⟨-, -, hle⟩ := rep_spec (plainTotal init d)
  obtain ⟨-, -, hle'⟩ := rep_spec (plainTotal init' d')
  rw [← BitVec.toNat_inj, f16_toNat, f16_toNat, closedForm_eq, closedForm_eq]
  omega

/-! ### What the totals say about the start value and about one byte -/

theorem plainTotal_eq_zero_iff (init : CkInit) (d : List Byte) :
    plainTotal init d = 0 ↔ init = .x00 ∧ ∀ b ∈ d, b = 0 := by
  rw [plainTotal, Nat.add_eq_zero_iff, byteSum_eq_zero_iff]
  cases init <;> simp [CkInit.value]

theorem plainTotal_xFF_ne_zero (d : List Byte) : plainTotal .xFF d ≠ 0 := by
  simp [plainTotal_eq_zero_iff]

theorem weightedTotal_eq_zero_iff (init : CkInit) (d : List Byte) : weightedTotal init d = 0 ↔ plainTotal init d = 0 := by
  rw [weightedTotal, plainTotal, Nat.add_eq_zero_iff, Nat.add_eq_zero_iff, weightedSum_eq_zero_iff, Nat.mul_eq_zero]
  omega

theorem plainTotal_xFF (d : List Byte) : plainTotal .xFF d = plainTotal .x00 d + 1 * 255 := by
  rw [plainTotal, plainTotal, ckInit_value_x00_toNat, ckInit_value_xFF_toNat]
  omega

theorem weightedTotal_xFF (d : List Byte) : weightedTotal .xFF d = weightedTotal .x00 d + (d.length + 1) * 255 := by
  rw [weightedTotal, weightedTotal, ckInit_value_x00_toNat, ckInit_value_xFF_toNat]
  omega

/-- A byte counts in the plain total with its value, wherever it stands (R121). -/
theorem plainTotal_insert (init : CkInit) (before after : List Byte) (b : Byte) :
    plainTotal init (before ++ b :: after) = plainTotal init (before ++ 0x00 :: after) + b.toNat := by
  simp only [plainTotal, byteSum_append, byteSum, BitVec.ofNat_eq_ofNat, BitVec.toNat_ofNat]
  omega

/-- A byte counts in the weighted total with its weight (R121). -/
theorem weightedTotal_insert (init : CkInit) (before after : List Byte) (b : Byte) :
    weightedTotal init (before ++ b :: after) =
      weightedTotal init (before ++ 0x00 :: after) + (after.length + 1) * b.toNat := by
  simp only [weightedTotal, weightedSum_append, weightedSum, List.length_append, List.length_cons, BitVec.ofNat_eq_ofNat,
    BitVec.toNat_ofNat]
  ring

/-- Totals that grow by multiples of 255, and were not zero, leave the checksum as it is (R118, R121). -/
theorem f16_eq_of_totals_add_mul_255 {init init' : CkInit} {d d' : List Byte} {k l : Nat} (hpos : plainTotal init d ≠ 0)
    (h1 : plainTotal init' d' = plainTotal init d + k * 255) (h2 : weightedTotal init' d' = weightedTotal init d + l * 255) :
    f16 init d = f16 init' d' := by
  have hpos2 : weightedTotal init d ≠ 0 := mt (weightedTotal_eq_zero_iff init d).1 hpos
  rw [f16_eq_f16_iff, h1, h2, rep_add_mul_255 (Nat.pos_of_ne_zero hpos), rep_add_mul_255 (Nat.pos_of_ne_zero hpos2)]
  exact ⟨rfl, rfl⟩

/-- `0x00` in place of `0xFF` is not seen, unless all totals were zero (R121 (b)). -/
theorem f16_zero_eq_f16_ones {init : CkInit} {before after : List Byte}
    (hpos : plainTotal init (before ++ 0x00 :: after) ≠ 0) :
    f16 init (before ++ 0x00 :: after) = f16 init (before ++ 0xFF :: after) :=
  f16_eq_of_totals_add_mul_255 hpos (k := 1) (plainTotal_insert init before after 0xFF)
    (weightedTotal_insert init before after 0xFF)

/-- Two bytes that agree modulo 255 are equal, or are `0x00` and `0xFF` (R121 (b)). -/
theorem byte_mod_255_cases {b b' : Byte} (h : b.toNat % 255 = b'.toNat % 255) :
    b = b' ∨ (b = 0x00 ∧ b' = 0xFF) ∨ (b = 0xFF ∧ b' = 0x00) := by
  simp only [← BitVec.toNat_inj, BitVec.ofNat_eq_ofNat, BitVec.toNat_ofNat]
  omega

/-- Equal checksums with one byte changed: the bytes agree modulo 255 (R121 (a)). -/
theorem byte_mod_255_of_f16_eq {init : CkInit} {before after : List Byte} {b b' : Byte}
    (h : f16 init (before ++ b :: after) = f16 init (before ++ b' :: after)) : b.toNat % 255 = b'.toNat % 255 := by
  obtain ⟨hplain, -⟩ := (f16_eq_f16_iff _ _ _ _).1 h
  rw [plainTotal_insert, plainTotal_insert init before after b', rep_eq_rep_iff] at hplain
  obtain ⟨hmod, -⟩ := hplain
  exact Nat.ModEq.add_left_cancel' _ hmod

/-! ### The obligations -/

/-- Settles O37: `f16_toNat`, by the loop's rounds and the last two folds. -/
theorem checksumLoopIsTheClosedForm : Obligations.ChecksumLoopIsTheClosedForm :=
  f16_toNat

/-- Settles O36: the response is the loop's result. -/
theorem ckF16AnswersTheChecksum : Obligations.CkF16AnswersTheChecksum := by
  intro s d
  exact ⟨f16 s.cfg.ckInit d, rfl, f16_toNat s.cfg.ckInit d⟩

/-- Settles O39: the sums are exact because their bounds fit in 16 bits. -/
theorem accumulatorsNeverOverflow : Obligations.AccumulatorsNeverOverflow := by
  intro s bs h1 h2 hlen
  obtain ⟨e1, e2⟩ := addBytes_toNat_of_block h1 h2 hlen
  obtain ⟨hb1, hb2⟩ := block_bounds h1 h2 hlen
  exact ⟨e1, e2, e1.trans_le hb1, e2.trans_le hb2⟩

/-- Settles O40: the totals under the two start values differ by multiples of 255, and under `0xFF` they are not zero. -/
theorem ckInitMattersForZerosOnly : Obligations.CkInitMattersForZerosOnly := by
  intro d
  have hpos1 := plainTotal_xFF_ne_zero d
  have hpos2 : weightedTotal .xFF d ≠ 0 := mt (weightedTotal_eq_zero_iff .xFF d).1 hpos1
  obtain ⟨-, hrep1, -⟩ := rep_spec (plainTotal .xFF d)
  obtain ⟨-, hrep2, -⟩ := rep_spec (weightedTotal .xFF d)
  refine ⟨fun hsome => ?_, fun hzeros => ?_, fun h => ?_, fun h => ?_⟩
  · have hpos : plainTotal .x00 d ≠ 0 := by simpa [plainTotal_eq_zero_iff] using hsome
    exact f16_eq_of_totals_add_mul_255 hpos (plainTotal_xFF d) (weightedTotal_xFF d)
  · have hplain : plainTotal .x00 d = 0 := (plainTotal_eq_zero_iff .x00 d).2 ⟨rfl, hzeros⟩
    have hweighted : weightedTotal .x00 d = 0 := (weightedTotal_eq_zero_iff .x00 d).2 hplain
    constructor
    · rw [← BitVec.toNat_inj, f16_toNat, closedForm_eq, hplain, hweighted]
      rfl
    · rw [← BitVec.toNat_inj, f16_toNat, closedForm_eq, plainTotal_xFF, weightedTotal_xFF, hplain, hweighted, Nat.zero_add,
        Nat.zero_add, rep_mul_255 Nat.one_pos, rep_mul_255 (Nat.succ_pos _)]
      rfl
  · rw [← BitVec.toNat_inj, hiByte_f16_toNat] at h
    exact hpos2 (hrep2.1 h)
  · rw [← BitVec.toNat_inj, loByte_f16_toNat] at h
    exact hpos1 (hrep1.1 h)

/-- Settles O41: the plain total shows every change that is not between `0x00` and `0xFF`; such a change adds multiples of 255 to
both totals. -/
theorem oneByteChangesAreDetected : Obligations.OneByteChangesAreDetected := by
  intro before after b b'
  refine ⟨fun hne h0F hF0 init heq => ?_, f16_zero_eq_f16_ones (plainTotal_xFF_ne_zero _), fun hsome => f16_zero_eq_f16_ones ?_⟩
  · rcases byte_mod_255_cases (byte_mod_255_of_f16_eq heq) with h | h | h
    · exact hne h
    · exact h0F h
    · exact hF0 h
  · obtain ⟨x, hx, hx0⟩ := hsome
    intro hzero
    obtain ⟨-, hzeros⟩ := (plainTotal_eq_zero_iff _ _).1 hzero
    exact hx0 (hzeros x (((List.sublist_cons_self 0x00 after).append_left before).subset hx))

/-- Settles O38: the facts about one fold. -/
theorem foldIsAnEndAroundCarry : Obligations.FoldIsAnEndAroundCarry := by
  intro s
  have hzero : fold s = 0 ↔ s = 0 := by
    rw [← BitVec.toNat_inj, ← BitVec.toNat_inj]
    exact fold_toNat_eq_zero_iff s
  exact ⟨fold_toNat s, fold_mod_255 s, hzero, fold_toNat_le s, fold_toNat_le_byte⟩

end Sys2Proof.Machine
end

section
/-! TX (41_tx_encoder.md): what its operations answer on each side of their checks, the queue of the frames handed to LINK under
every operation, and the round trip of a built frame through the receiver. -/

namespace Sys2Proof.Machine

/-! ### The built frame -/

theorem loByte_beHalf (hi lo : Byte) : loByte (beHalf hi lo) = lo := by
  ext i hlt
  simp [loByte, beHalf, hlt, show i < 16 by omega]

/-- Check bytes that assemble to the checksum are the ones the frame ends with (R84, R131). -/
theorem wireFrame_of_check {init : CkInit} {type hi lo : Byte} {payload : List Byte}
    (h : beHalf hi lo = f16 init (frameBody type payload)) :
    wireFrame init type payload = [0xAA, 0xAA, type, BitVec.ofNat 8 payload.length] ++ payload ++ [hi, lo] := by
  rw [wireFrame, frameTail, ← h, hiByte_beHalf, loByte_beHalf]
  rfl

/-- The size of a frame (R134). -/
theorem wireFrame_length (init : CkInit) (type : Byte) (payload : List Byte) :
    (wireFrame init type payload).length = payload.length + 6 := by
  simp [wireFrame, frameTail, frameBody]

/-! ### TX.ENCODE and its failure -/

theorem execTxEncode_of_fits {s : State} (type : Byte) {payload : List Byte} (h : payload.length ≤ s.cfg.maxPayload) :
    execTxEncode type payload s = .next
      { s with out := s.out ++ [.txFrame (wireFrame s.cfg.ckInit type payload)]
               handed := s.handed ++ [wireFrame s.cfg.ckInit type payload] } :=
  if_pos h

theorem execTxEncode_of_too_large {s : State} (type : Byte) {payload : List Byte} (h : s.cfg.maxPayload < payload.length) :
    execTxEncode type payload s = .next (s.raise (.encodeFault type payload.length)) :=
  if_neg (Nat.not_le.2 h)

theorem execTxEncodeToolarge_of_too_large {s : State} (type : Byte) {n : Nat} (h : s.cfg.maxPayload < n) :
    execTxEncodeToolarge type n s = .next (s.raise (.encodeFault type n)) :=
  if_pos h

theorem execTxEncodeToolarge_of_fits {s : State} (type : Byte) {n : Nat} (h : n ≤ s.cfg.maxPayload) :
    execTxEncodeToolarge type n s = .refused (.payloadFits n) :=
  if_neg (Nat.not_lt.2 h)

theorem decodeEnc_of_too_large {c : Config} (type : Byte) {payload : List Byte} (h : c.maxPayload < payload.length) :
    decodeEnc c type payload = .txEncodeToolarge type payload.length :=
  if_neg (Nat.not_le.2 h)

/-- TX.ENCODE.TOOLARGE answers on its side of the length check only (R132). -/
theorem execTxEncodeToolarge_next {type : Byte} {n : Nat} {s t : State} (h : execTxEncodeToolarge type n s = .next t) :
    t = s.raise (.encodeFault type n) := by
  rcases Nat.lt_or_ge s.cfg.maxPayload n with hlarge | hfits
  · rw [execTxEncodeToolarge_of_too_large type hlarge] at h
    cases h
    rfl
  · rw [execTxEncodeToolarge_of_fits type hfits] at h
    cases h

/-! ### TX.WRITE -/

theorem execTxWrite_success {s : State} {frame : List Byte} {later : List (List Byte)} (h : s.handed = frame :: later) :
    execTxWrite frame .success s = .next { s with handed := later, sent := s.sent ++ [frame] } := by
  simp only [execTxWrite, h, if_true]

theorem execTxWrite_failure {s : State} {frame : List Byte} {later : List (List Byte)} (h : s.handed = frame :: later) :
    execTxWrite frame .failure s = .next (State.raise { s with handed := later } .ioWriteFault) := by
  simp only [execTxWrite, h, if_true]

/-- A frame behind the oldest waits, whatever LINK would answer (R136; log 10). -/
theorem execTxWrite_behind {s : State} {frame oldest : List Byte} {later : List (List Byte)} (answer : LinkAnswer)
    (h : s.handed = oldest :: later) (hne : frame ≠ oldest) (hmem : frame ∈ later) :
    execTxWrite frame answer s = .next s := by
  simp only [execTxWrite, h, if_neg hne, if_pos hmem, hold]

/-- A frame that is not handed over is no operand of TX.WRITE (R135; log 10). -/
theorem execTxWrite_not_handed {s : State} {frame : List Byte} (answer : LinkAnswer) (h : frame ∉ s.handed) :
    execTxWrite frame answer s = .refused .frameNotHanded := by
  cases hs : s.handed with
  | nil => simp only [execTxWrite, hs]
  | cons oldest later =>
    rw [hs, List.mem_cons, not_or] at h
    obtain ⟨hne, hnot⟩ := h
    simp only [execTxWrite, hs, if_neg hne, if_neg hnot]

/-! ### The queue of the frames under every operation -/

/-- The frames handed over and the frames sent are as they were. -/
structure SameQueues (s t : State) : Prop where
  handed : t.handed = s.handed
  sent : t.sent = s.sent

theorem SameQueues.refl (s : State) : SameQueues s s := ⟨rfl, rfl⟩

theorem SameQueues.trans {s t u : State} (h : SameQueues s t) (h' : SameQueues t u) : SameQueues s u :=
  ⟨h'.handed.trans h.handed, h'.sent.trans h.sent⟩

theorem runOutcome_sameQueues {o : RxOutcome} {s t : State} (h : runOutcome o s = .next t) : SameQueues s t := by
  obtain ⟨-, -, -, hhanded, hsent, -⟩ := runOutcome_frame h
  exact ⟨hhanded, hsent⟩

theorem drainLoop_sameQueues {n : Nat} {s t : State} (h : drainLoop n s = .next t) : SameQueues s t := by
  induction n generalizing s with
  | zero =>
    cases h
    exact SameQueues.refl _
  | succ n ih =>
    obtain ⟨o, u, -, hu, ⟨-, rfl⟩ | ⟨-, hrest⟩⟩ := drainLoop_next h
    · exact runOutcome_sameQueues hu
    · exact (runOutcome_sameQueues hu).trans (ih hrest)

theorem execRxWrite_sameQueues {v : List Byte} {s t : State} (h : execRxWrite v s = .next t) : SameQueues s t := by
  obtain ⟨-, ⟨-, -, rfl⟩ | rfl⟩ := execRxWrite_next h
  · exact ⟨rfl, rfl⟩
  · exact SameQueues.refl _

theorem readPayload_sameQueues {k : Nat} {s t : State} (h : readPayload k s = .next t) : SameQueues s t := by
  obtain ⟨n, b, -, -, -, rfl⟩ := readPayload_next h
  exact ⟨rfl, rfl⟩

/-- An operation that only gives a response leaves the frames alone. -/
theorem sameQueues_of_respond {s t : State} {r : Result}
    (h : (.next (s.respond r) : Host.Outcome State Fault Refusal) = .next t) : SameQueues s t := by
  cases h
  exact ⟨rfl, rfl⟩

theorem execFxMilli_sameQueues {w f : Nat} {s t : State} (h : execFxMilli w f s = .next t) : SameQueues s t := by
  unfold execFxMilli at h
  split_ifs at h
  exact sameQueues_of_respond h

theorem execFxDigits3_sameQueues {f : Nat} {s t : State} (h : execFxDigits3 f s = .next t) : SameQueues s t := by
  unfold execFxDigits3 at h
  split_ifs at h
  exact sameQueues_of_respond h

/-- What an operation does to the frames (R131, R135, R136): only TX.ENCODE and TX.WRITE, the owners of the queue's two ends, can
change them. -/
theorem exec_sameQueues {i : Instr} {s t : State} (h : exec i s = .next t) :
    SameQueues s t ∨ (∃ type payload, i = .txEncode type payload) ∨ ∃ frame answer, i = .txWrite frame answer := by
  cases i with
  | rxStepS1hit => exact .inl (runOutcome_sameQueues (o := .s1hit) h)
  | rxStepS1miss => exact .inl (runOutcome_sameQueues (o := .s1miss) h)
  | rxStepS2hit => exact .inl (runOutcome_sameQueues (o := .s2hit) h)
  | rxStepS2miss => exact .inl (runOutcome_sameQueues (o := .s2miss) h)
  | rxStepStopempty => exact .inl (runOutcome_sameQueues (o := .stopempty) h)
  | rxStepHdrwait => exact .inl (runOutcome_sameQueues (o := .hdrwait) h)
  | rxStepFrameok => exact .inl (runOutcome_sameQueues (o := .frameok) h)
  | rxStepFramebad => exact .inl (runOutcome_sameQueues (o := .framebad) h)
  | txEncode type payload => exact .inr (.inl ⟨type, payload, rfl⟩)
  | txEncodeToolarge type n =>
    obtain rfl := execTxEncodeToolarge_next h
    exact .inl ⟨rfl, rfl⟩
  | txWrite frame answer => exact .inr (.inr ⟨frame, answer, rfl⟩)
  | ckF16 d => exact .inl (sameQueues_of_respond h)
  | rxWrite v => exact .inl (execRxWrite_sameQueues h)
  | rxDrain => exact .inl (drainLoop_sameQueues h)
  | plRead k => exact .inl (readPayload_sameQueues h)
  | fxBe16 b0 b1 => exact .inl (sameQueues_of_respond h)
  | fxBe32 b0 b1 b2 b3 => exact .inl (sameQueues_of_respond h)
  | fxMilli w f => exact .inl (execFxMilli_sameQueues h)
  | fxGauge v => exact .inl (sameQueues_of_respond h)
  | fxCounter ip fp => exact .inl (sameQueues_of_respond h)
  | fxDigits3 f => exact .inl (execFxDigits3_sameQueues h)
  | fxRound11 x => exact .inl (sameQueues_of_respond h)
  | reset =>
    cases h
    exact .inl ⟨rfl, rfl⟩

/-! ### A built frame in the received stream -/

/-- The two markers of a frame bring the framer to its header (R154, R156, R170). -/
theorem parse_markers (init : CkInit) (bytes : List Byte) :
    parse init .awaitSync1 (syncByte :: syncByte :: bytes) = parse init .awaitHeader bytes := rfl

theorem frameTail_length (init : CkInit) (type : Byte) (payload : List Byte) :
    (frameTail init type payload).length = payload.length + 4 := by
  simp [frameTail, frameBody]

/-- From the header on, a built frame is one Telegram, and the hunt goes on behind it (R162, R170). -/
theorem parse_frameTail (c : Config) (type : Byte) {payload : List Byte} (h : payload.length < 256) (extra : List Byte) :
    let later := parse c.ckInit .awaitSync1 extra
    parse c.ckInit .awaitHeader (frameTail c.ckInit type payload ++ extra) =
      ⟨.telegram type (BitVec.ofNat 8 payload.length) payload :: later.events, later.sync, later.residue⟩ := by
  have hok := decodeStream_frameTail c type h extra
  obtain ⟨-, -, hparse⟩ := parse_go c .awaitHeader (frameTail c.ckInit type payload ++ extra) (by rw [hok]; rfl)
  have hsize : frameSize (BitVec.ofNat 8 payload.length) = (frameTail c.ckInit type payload).length := by
    rw [frameSize, toNat_lengthByte h, frameTail_length]
  simp only [hok, advance, parseCandidate_frameTail c.ckInit type h extra, hsize, List.drop_left] at hparse
  exact hparse

/-- A built frame is one Telegram of the stream and leaves nothing behind (R137, R170). -/
theorem parse_wireFrame (c : Config) (type : Byte) {payload : List Byte} (h : payload.length < 256) :
    parse c.ckInit .awaitSync1 (wireFrame c.ckInit type payload) =
      ⟨[.telegram type (BitVec.ofNat 8 payload.length) payload], .awaitSync1, []⟩ := by
  have htail := parse_frameTail c type h []
  rw [List.append_nil] at htail
  exact (parse_markers c.ckInit _).trans htail

theorem buffered_of_fill_eq_zero {s : State} (h : s.fill = 0) : s.buffered = .ok [] := by
  rw [State.buffered, h, State.ringRead]

/-! ### The obligations -/

/-- Settles O34: RX.FEED reports what `parse` gives for the frame, and that is one Telegram. -/
theorem encodedFramesAreReceived : Obligations.EncodedFramesAreReceived := by
  intro s type payload h hd hsync hfill hfits
  obtain ⟨t, ht, hfed⟩ := rxFeed_fed h hd (List.cons_ne_nil syncByte _)
  obtain ⟨es, rs, hparse, hout, hrs⟩ := hfed.framed [] (buffered_of_fill_eq_zero hfill)
  have hframe := parse_wireFrame s.cfg type (length_lt_of_le_maxPayload h.cfgValid hfits)
  rw [hsync, List.nil_append] at hparse
  obtain ⟨rfl, hst, rfl⟩ := Parsed.mk.inj (hparse.symm.trans hframe)
  exact ⟨t, ht, hout, hst, (buffered_length hrs).symm⟩

/-- Settles O33: TX.ENCODE and TX.WRITE by what they answer, every other operation because it leaves the frames alone. -/
theorem framesLeaveInOrder : Obligations.FramesLeaveInOrder := by
  intro i s t h
  rcases exec_sameQueues h with hsame | ⟨type, payload, rfl⟩ | ⟨frame, answer, rfl⟩
  · exact .inl ⟨hsame.handed, hsame.sent⟩
  · rcases Nat.lt_or_ge s.cfg.maxPayload payload.length with hlarge | hfits
    · obtain rfl := Host.Outcome.next.inj ((execTxEncode_of_too_large type hlarge).symm.trans h)
      exact .inl ⟨rfl, rfl⟩
    · obtain rfl := Host.Outcome.next.inj ((execTxEncode_of_fits type hfits).symm.trans h)
      exact .inr (.inl ⟨type, payload, _, rfl, rfl, rfl, rfl⟩)
  · rcases execTxWrite_next h with ⟨later, hhanded, ⟨-, rfl⟩ | ⟨-, rfl⟩⟩ | ⟨-, rfl⟩
    · exact .inr (.inr ⟨frame, answer, rfl, hhanded, .inl rfl⟩)
    · exact .inr (.inr ⟨frame, answer, rfl, hhanded, .inr ⟨rfl, rfl⟩⟩)
    · exact .inl ⟨rfl, rfl⟩

/-- Settles O28: the check bytes are those of the built frame. -/
theorem txEncodeBuildsTheFrame : Obligations.TxEncodeBuildsTheFrame := by
  intro s type hi lo payload hfits hck
  exact ⟨wireFrame s.cfg.ckInit type payload, wireFrame_of_check hck, wireFrame_length _ _ _, execTxEncode_of_fits type hfits⟩

/-- Settles O29: the operation, and the length check of the decoder on port `enc`. -/
theorem txEncodeTooLargeRaisesEncodeFault : Obligations.TxEncodeTooLargeRaisesEncodeFault := by
  intro s type n hlarge
  refine ⟨execTxEncodeToolarge_of_too_large type hlarge, ?_⟩
  rintro payload rfl
  exact congrArg Except.ok (decodeEnc_of_too_large type hlarge)

/-- Settles O30: each operation on the other's side of the length check. -/
theorem theLengthCheckSplitsTheEncodeRequests : Obligations.TheLengthCheckSplitsTheEncodeRequests := by
  intro s type payload n
  exact ⟨execTxEncode_of_too_large type, execTxEncodeToolarge_of_fits type⟩

/-- Settles O31: both answers of LINK. -/
theorem txWriteTakesTheAnswer : Obligations.TxWriteTakesTheAnswer := by
  intro s frame later hhanded
  exact ⟨execTxWrite_success hhanded, execTxWrite_failure hhanded⟩

/-- Settles O32: a frame that is not the oldest is behind it or not handed over. -/
theorem txWriteKeepsTheOrder : Obligations.TxWriteKeepsTheOrder := by
  intro s frame answer
  exact ⟨fun oldest later => execTxWrite_behind answer, execTxWrite_not_handed answer⟩

end Sys2Proof.Machine
end

section
/-! RX against the stream semantics (42_rx_framer.md R165, R170 to R172): what one RX.STEP, a drain, a schedule and any step of the
machine do to the parse that is still to come. -/

namespace Sys2Proof.Machine

/-! ### The parse still to come -/

/-- The parse `p` with the events `es` reported before it. -/
def Parsed.after (p : Parsed) (es : List Event) : Parsed := ⟨es ++ p.events, p.sync, p.residue⟩

theorem Parsed.after_nil (p : Parsed) : p.after [] = p := rfl

theorem Parsed.after_after (p : Parsed) (es es' : List Event) : (p.after es').after es = p.after (es ++ es') := by
  simp only [Parsed.after, List.append_assoc]

/-- Bytes that arrive behind do not change what has been reported before them (R170, R171). -/
theorem parse_append_of_eq_after (c : Config) {st st' : SyncState} {bs cs : List Byte} {es : List Event}
    (h : parse c.ckInit st bs = (parse c.ckInit st' cs).after es) (ex : List Byte) :
    parse c.ckInit st (bs ++ ex) = (parse c.ckInit st' (cs ++ ex)).after es := by
  have hbs := parse_append c st bs ex
  have hcs := parse_append c st' cs ex
  simp only [h, Parsed.after] at hbs
  rw [hbs, hcs, Parsed.after, List.append_assoc]

theorem followsTheStream_iff (s : State) :
    FollowsTheStream s ↔ ∃ bs, s.buffered = .ok bs ∧
      parse s.cfg.ckInit .awaitSync1 s.accepted = (parse s.cfg.ckInit s.sync bs).after (s.out.filter Event.isRx) :=
  Iff.rfl

/-- From `s`, standing before the bytes `bs`, RX has come to `t`, standing before `cs`, and has reported `es`, as `parse` does
(R170). -/
structure Progress (s : State) (bs : List Byte) (es : List Event) (t : State) (cs : List Byte) : Prop where
  cfg : t.cfg = s.cfg
  out : t.out = s.out ++ es
  isRx : ∀ e ∈ es, e.isRx = true
  parse : parse s.cfg.ckInit s.sync bs = (parse t.cfg.ckInit t.sync cs).after es

theorem Progress.refl (s : State) (bs : List Byte) : Progress s bs [] s bs where
  cfg := rfl
  out := (List.append_nil _).symm
  isRx := fun _ he => nomatch he
  parse := (Parsed.after_nil _).symm

theorem Progress.trans {s t u : State} {bs cs ds : List Byte} {es es' : List Event} (h : Progress s bs es t cs)
    (h' : Progress t cs es' u ds) : Progress s bs (es ++ es') u ds where
  cfg := h'.cfg.trans h.cfg
  out := by rw [h'.out, h.out, List.append_assoc]
  isRx := fun e he => (List.mem_append.1 he).elim (h.isRx e) (h'.isRx e)
  parse := by rw [h.parse, h'.parse, Parsed.after_after]

theorem Progress.append {s t : State} {bs cs : List Byte} {es : List Event} (h : Progress s bs es t cs) (ex : List Byte) :
    Progress s (bs ++ ex) es t (cs ++ ex) where
  cfg := h.cfg
  out := h.out
  isRx := h.isRx
  parse := by
    have hparse := h.parse
    rw [h.cfg] at hparse ⊢
    exact parse_append_of_eq_after s.cfg hparse ex

/-- A drain that goes through the rest has, with what came before it, gone through the whole (R170). -/
theorem Progress.framed {s t u : State} {bs cs : List Byte} {es : List Event} (h : Progress s bs es t cs)
    (h' : Framed t cs u) : Framed s bs u := by
  obtain ⟨es', rs, hparse, hout, hrs⟩ := h'
  exact ⟨es ++ es', rs, by rw [h.parse, hparse]; rfl, by rw [hout, h.out, List.append_assoc], hrs⟩

/-- From `s` to `t` RX has gone on through its buffered bytes. -/
def Proceeds (s t : State) : Prop :=
  ∀ bs, s.buffered = .ok bs → ∃ es cs, t.buffered = .ok cs ∧ Progress s bs es t cs

theorem Proceeds.refl (s : State) : Proceeds s s := fun bs hb => ⟨[], bs, hb, Progress.refl s bs⟩

theorem Proceeds.trans {s t u : State} (h : Proceeds s t) (h' : Proceeds t u) : Proceeds s u := by
  intro bs hb
  obtain ⟨es, cs, hc, hp⟩ := h bs hb
  obtain ⟨es', ds, hd, hp'⟩ := h' cs hc
  exact ⟨es ++ es', ds, hd, hp.trans hp'⟩

/-! ### RX.STEP and RX.DRAIN -/

theorem advance_events_isRx (init : CkInit) (o : RxOutcome) (bs : List Byte) :
    ∀ e ∈ (advance init o bs).2.1, e.isRx = true := by
  unfold advance
  split <;> simp [Event.isRx]

theorem Inv.of_runOutcome {s t : State} {o : RxOutcome} (h : Inv s) (ht : runOutcome o s = .next t) : Inv t := by
  obtain ⟨u, hu, hinv⟩ := h.runOutcome_next o
  obtain rfl := Host.Outcome.next.inj (hu.symm.trans ht)
  exact hinv

/-- An outcome other than the selected one holds (log 8). -/
theorem runOutcome_of_ne {s : State} {bs : List Byte} {o : RxOutcome} (hb : s.buffered = .ok bs)
    (ho : decodeStream s.cfg s.sync bs ≠ o) : runOutcome o s = .next s := by
  obtain ⟨fs, hf, hd, -⟩ := rxFetch_of_buffered hb
  exact runOutcome_of_not_selected hf (by rwa [hd])

/-- An RX.STEP goes on as `parse` does: a *continue* by one of its rounds, a *stop* or a hold by none (R164, R170). -/
theorem runOutcome_proceeds {s t : State} {o : RxOutcome} (h : Inv s) (ht : runOutcome o s = .next t) : Proceeds s t := by
  intro bs hb
  obtain ⟨-, hstop, hgo⟩ := rxStep_of_buffered h hb
  have stays (hs : runOutcome o s = .next s) : ∃ es cs, t.buffered = .ok cs ∧ Progress s bs es t cs := by
    obtain rfl := Host.Outcome.next.inj (hs.symm.trans ht)
    exact Proceeds.refl s bs hb
  by_cases ho : decodeStream s.cfg s.sync bs = o
  · subst ho
    cases hs : (decodeStream s.cfg s.sync bs).isStop with
    | true => exact stays (hstop hs)
    | false =>
      obtain ⟨u, hu, -, hbu, hout, hsync, hcfg, -⟩ := hgo hs
      obtain rfl := Host.Outcome.next.inj (hu.symm.trans ht)
      obtain ⟨-, -, hparse⟩ := parse_go s.cfg s.sync bs hs
      refine ⟨_, _, hbu, hcfg, hout, advance_events_isRx _ _ _, ?_⟩
      rw [hcfg, hsync]
      exact hparse
  · exact stays (runOutcome_of_ne hb ho)

/-- What holds between the states around every RX.STEP of a drain holds between the states around the drain (R165). -/
theorem drainLoop_rel {R : State → State → Prop} (refl : ∀ s, R s s) (trans : ∀ {s t u}, R s t → R t u → R s u)
    (step : ∀ {o s t}, runOutcome o s = .next t → R s t) {n : Nat} {s t : State} (h : drainLoop n s = .next t) : R s t := by
  induction n generalizing s with
  | zero =>
    cases h
    exact refl _
  | succ n ih =>
    obtain ⟨o, u, -, hu, ⟨-, rfl⟩ | ⟨-, hrest⟩⟩ := drainLoop_next h
    · exact step hu
    · exact trans (step hu) (ih hrest)

theorem execRxDrain_proceeds {s t : State} (h : Inv s) (ht : execRxDrain s = .next t) : Proceeds s t := by
  have hrel : Inv s → Inv t ∧ Proceeds s t :=
    drainLoop_rel (R := fun s t => Inv s → Inv t ∧ Proceeds s t) (fun s hs => ⟨hs, Proceeds.refl s⟩)
      (fun hst htu hs => ⟨(htu (hst hs).1).1, (hst hs).2.trans (htu (hst hs).1).2⟩)
      (fun hstep hs => ⟨hs.of_runOutcome hstep, runOutcome_proceeds hs hstep⟩) ht
  exact (hrel h).2

/-- From `s` to `t` no request was taken but payload reads, each answered with a byte (R167; log 6). -/
def TakesReads (s t : State) : Prop :=
  ∃ (ks : List Nat) (answers : List Byte), s.inputs = (ks.map fun k => .port (.pl k)) ++ t.inputs ∧
    t.results = s.results ++ answers.map .payloadByte ∧ answers.length = ks.length

theorem TakesReads.refl (s : State) : TakesReads s s := ⟨[], [], rfl, (List.append_nil _).symm, rfl⟩

theorem TakesReads.trans {s t u : State} (h : TakesReads s t) (h' : TakesReads t u) : TakesReads s u := by
  obtain ⟨ks, answers, hinputs, hresults, hlen⟩ := h
  obtain ⟨ks', answers', hinputs', hresults', hlen'⟩ := h'
  refine ⟨ks ++ ks', answers ++ answers', ?_, ?_, ?_⟩
  · rw [hinputs, hinputs', List.map_append, List.append_assoc]
  · rw [hresults', hresults, List.map_append, List.append_assoc]
  · rw [List.length_append, List.length_append, hlen, hlen']

theorem execRxDrain_takesReads {s t : State} (h : execRxDrain s = .next t) : TakesReads s t :=
  drainLoop_rel TakesReads.refl TakesReads.trans runOutcome_requests h

/-! ### Schedules -/

/-- A schedule keeps the invariant, and comes to where `parse` stands after the buffered and the accepted bytes (R170). -/
theorem runSchedule_progress {ms : List RxMove} {s t : State} {bs accepted : List Byte} (h : Inv s) (hb : s.buffered = .ok bs)
    (hrun : runSchedule ms s = some (accepted, t)) :
    Inv t ∧ ∃ es cs, t.buffered = .ok cs ∧ Progress s (bs ++ accepted) es t cs := by
  induction ms generalizing s bs accepted with
  | nil =>
    cases hrun
    exact ⟨h, by rw [List.append_nil]; exact Proceeds.refl _ bs hb⟩
  | cons m ms ih =>
    cases m with
    | write v =>
      simp only [runSchedule] at hrun
      split_ifs at hrun with hfits
      · obtain ⟨hne, hroom, hchunk⟩ := hfits
        have hstore : exec (.rxWrite v) s = .next (s.store v) := execRxWrite_accepted hne hroom hchunk
        simp only [hstore, Option.map_eq_some_iff] at hrun
        obtain ⟨⟨later, t'⟩, hlater, hpair⟩ := hrun
        cases hpair
        obtain ⟨hinv, es, cs, hc, hp⟩ := ih (h.store hroom) (buffered_store h.headInRing h.tailInRing hroom hb) hlater
        rw [List.append_assoc] at hp
        exact ⟨hinv, es, cs, hc, hp.cfg, hp.out, hp.isRx, hp.parse⟩
      · exact ih h hb hrun
    | step =>
      have ho := (rxStep_of_buffered h hb).1
      obtain ⟨u, hu, hinv⟩ := h.runOutcome_next (decodeStream s.cfg s.sync bs)
      simp only [runSchedule, ho, exec_toInstr, hu] at hrun
      obtain ⟨es, cs, hc, hp⟩ := runOutcome_proceeds h hu bs hb
      obtain ⟨hinv', es', ds, hd, hp'⟩ := ih hinv hc hrun
      exact ⟨hinv', es ++ es', ds, hd, (hp.append accepted).trans hp'⟩

/-- A schedule and a drain go through the buffered and the accepted bytes as `parse` does (R170). -/
theorem runSchedule_drain_framed {ms : List RxMove} {s t u : State} {bs accepted : List Byte} (h : Inv s)
    (hb : s.buffered = .ok bs) (hrun : runSchedule ms s = some (accepted, t)) (hdrain : execRxDrain t = .next u) :
    Framed s (bs ++ accepted) u := by
  obtain ⟨hinv, es, cs, hc, hp⟩ := runSchedule_progress h hb hrun
  obtain ⟨u', hu', -, -, -, hframed⟩ := execRxDrain_framed hinv hc
  obtain rfl := Host.Outcome.next.inj (hu'.symm.trans hdrain)
  exact hp.framed hframed

/-! ### The stream under every operation -/

/-- RX going on keeps the stream semantics: what it reports leaves the parse that is still to come (R170). -/
theorem FollowsTheStream.of_proceeds {s t : State} (h : FollowsTheStream s) (hp : Proceeds s t)
    (ha : t.accepted = s.accepted) : FollowsTheStream t := by
  obtain ⟨bs, hb, hparse⟩ := (followsTheStream_iff s).1 h
  obtain ⟨es, cs, hc, hprogress⟩ := hp bs hb
  refine (followsTheStream_iff t).2 ⟨cs, hc, ?_⟩
  have hrest := hprogress.parse
  rw [hprogress.cfg] at hrest ⊢
  rw [ha, hparse, hrest, Parsed.after_after, hprogress.out, List.filter_append, List.filter_eq_self.2 hprogress.isRx]

/-- An operation that leaves the receive record and the reports of RX alone keeps the stream semantics. -/
theorem FollowsTheStream.of_sameRecord {s t : State} (h : FollowsTheStream s) (e : SameRecord s t)
    (hout : t.out.filter Event.isRx = s.out.filter Event.isRx) : FollowsTheStream t := by
  obtain ⟨bs, hb, hparse⟩ := (followsTheStream_iff s).1 h
  refine (followsTheStream_iff t).2 ⟨bs, e.buffered.trans hb, ?_⟩
  rw [e.cfg, e.accepted, e.sync, hout, hparse]

/-- Accepted bytes stand behind the buffered ones, in the ring and in the stream (R55, R170). -/
theorem FollowsTheStream.store {s : State} (hinv : Inv s) (h : FollowsTheStream s) {v : List Byte}
    (hv : v.length ≤ s.rxSpace) : FollowsTheStream (s.store v) := by
  obtain ⟨bs, hb, hparse⟩ := (followsTheStream_iff s).1 h
  exact (followsTheStream_iff _).2 ⟨bs ++ v, buffered_store hinv.headInRing hinv.tailInRing hv hb,
    parse_append_of_eq_after s.cfg hparse v⟩

theorem FollowsTheStream.runOutcome {s t : State} {o : RxOutcome} (hinv : Inv s) (h : FollowsTheStream s)
    (ht : runOutcome o s = .next t) : FollowsTheStream t :=
  h.of_proceeds (runOutcome_proceeds hinv ht) (runOutcome_sameProducerPart ht).accepted

theorem FollowsTheStream.execRxWrite {s t : State} {v : List Byte} (hinv : Inv s) (h : FollowsTheStream s)
    (ht : execRxWrite v s = .next t) : FollowsTheStream t := by
  obtain ⟨-, ⟨hroom, -, rfl⟩ | rfl⟩ := execRxWrite_next ht
  · exact h.store hinv hroom
  · exact h

/-- After RESET nothing is buffered, accepted or reported (R170, R260). -/
theorem followsTheStream_of_reset {s t : State} (hc : s.cfg.Valid) (ht : exec .reset s = .next t) : FollowsTheStream t := by
  have hinv := inv_of_reset hc ht
  cases ht
  exact ⟨[], buffered_of_fill_eq_zero ((fill_eq_zero_iff hinv.headInRing hinv.tailInRing).2 rfl), rfl⟩

/-- A report of another unit is none of RX's (R220). -/
theorem filter_isRx_append {e : Event} (he : e.isRx = false) (out : List Event) :
    (out ++ [e]).filter Event.isRx = out.filter Event.isRx := by
  simp [he]

theorem execTxEncode_rxReports {type : Byte} {payload : List Byte} {s t : State} (h : execTxEncode type payload s = .next t) :
    t.out.filter Event.isRx = s.out.filter Event.isRx := by
  rcases Nat.lt_or_ge s.cfg.maxPayload payload.length with hlarge | hfits
  · obtain rfl := Host.Outcome.next.inj ((execTxEncode_of_too_large type hlarge).symm.trans h)
    exact filter_isRx_append rfl _
  · obtain rfl := Host.Outcome.next.inj ((execTxEncode_of_fits type hfits).symm.trans h)
    exact filter_isRx_append rfl _

theorem execTxWrite_rxReports {frame : List Byte} {answer : LinkAnswer} {s t : State}
    (h : execTxWrite frame answer s = .next t) : t.out.filter Event.isRx = s.out.filter Event.isRx := by
  rcases execTxWrite_next h with ⟨later, -, ⟨-, rfl⟩ | ⟨-, rfl⟩⟩ | ⟨-, rfl⟩
  · rfl
  · exact filter_isRx_append rfl _
  · rfl

theorem execFxMilli_next {w f : Nat} {s t : State} (h : execFxMilli w f s = .next t) : ∃ r, t = s.respond r := by
  unfold execFxMilli at h
  split_ifs at h
  exact ⟨_, (Host.Outcome.next.inj h).symm⟩

theorem execFxDigits3_next {f : Nat} {s t : State} (h : execFxDigits3 f s = .next t) : ∃ r, t = s.respond r := by
  unfold execFxDigits3 at h
  split_ifs at h
  exact ⟨_, (Host.Outcome.next.inj h).symm⟩

theorem FollowsTheStream.of_respond {s t : State} {r : Result} (h : FollowsTheStream s)
    (ht : (.next (s.respond r) : Host.Outcome State Fault Refusal) = .next t) : FollowsTheStream t := by
  cases ht
  exact h.of_sameRecord (sameRecord_respond s r) rfl

/-- Every operation keeps the stream semantics: RX's go on as `parse` does, RESET starts anew, and no other touches the receive
record or reports what RX does (R170, R171). -/
theorem FollowsTheStream.exec {i : Instr} {s t : State} (hinv : Inv s) (h : FollowsTheStream s) (ht : exec i s = .next t) :
    FollowsTheStream t := by
  cases i with
  | rxStepS1hit => exact h.runOutcome (o := .s1hit) hinv ht
  | rxStepS1miss => exact h.runOutcome (o := .s1miss) hinv ht
  | rxStepS2hit => exact h.runOutcome (o := .s2hit) hinv ht
  | rxStepS2miss => exact h.runOutcome (o := .s2miss) hinv ht
  | rxStepStopempty => exact h.runOutcome (o := .stopempty) hinv ht
  | rxStepHdrwait => exact h.runOutcome (o := .hdrwait) hinv ht
  | rxStepFrameok => exact h.runOutcome (o := .frameok) hinv ht
  | rxStepFramebad => exact h.runOutcome (o := .framebad) hinv ht
  | txEncode type payload =>
    exact h.of_sameRecord ((execTxEncode_sameRecord type payload s).of_eq_next ht) (execTxEncode_rxReports ht)
  | txEncodeToolarge type n =>
    obtain rfl := execTxEncodeToolarge_next ht
    exact h.of_sameRecord (sameRecord_raise s _) (filter_isRx_append rfl _)
  | txWrite frame answer =>
    exact h.of_sameRecord ((execTxWrite_sameRecord frame answer s).of_eq_next ht) (execTxWrite_rxReports ht)
  | ckF16 d => exact h.of_respond ht
  | rxWrite v => exact h.execRxWrite hinv ht
  | rxDrain => exact h.of_proceeds (execRxDrain_proceeds hinv ht) (drainLoop_sameProducerPart ht).accepted
  | plRead k =>
    obtain ⟨-, -, -, -, -, rfl⟩ := readPayload_next ht
    exact h.of_respond rfl
  | fxBe16 b0 b1 => exact h.of_respond ht
  | fxBe32 b0 b1 b2 b3 => exact h.of_respond ht
  | fxMilli w f =>
    obtain ⟨r, rfl⟩ := execFxMilli_next ht
    exact h.of_respond rfl
  | fxGauge v => exact h.of_respond ht
  | fxCounter ip fp => exact h.of_respond ht
  | fxDigits3 f =>
    obtain ⟨r, rfl⟩ := execFxDigits3_next ht
    exact h.of_respond rfl
  | fxRound11 x => exact h.of_respond ht
  | reset => exact followsTheStream_of_reset hinv.cfgValid ht

/-! ### The obligations -/

/-- Settles O24: the drain ends quiescent behind what `parse` consumes, and what it leaves alone is what each of its RX.STEPs leaves
alone. -/
theorem drainRunsToTheEndOfTheStream : Obligations.DrainRunsToTheEndOfTheStream := by
  intro s bs h hb
  obtain ⟨t, ht, hinv, hquiescent, hsame, es, rs, hparse, hout, hrs⟩ := execRxDrain_framed h hb
  have hqueues := drainLoop_sameQueues ht
  rw [hparse]
  exact ⟨t, ht, hout, rfl, hrs, hquiescent, hsame.head, readCell_congr hsame.cfg hsame.buf, hsame.cfg, hqueues.handed,
    hqueues.sent, hinv.noDelivery, hsame.accepted, execRxDrain_takesReads ht⟩

/-- Settles O25: by induction on the schedule, with the parse that is still to come as what each move keeps. -/
theorem streamSemanticsOfEverySchedule : Obligations.StreamSemanticsOfEverySchedule := by
  intro s t u ms bs accepted h hb hrun hdrain
  obtain ⟨es, rs, hparse, hout, hrs⟩ := runSchedule_drain_framed h hb hrun hdrain
  rw [hparse]
  exact ⟨hout, rfl, hrs⟩

/-- Settles O26: both schedules end where `parse` ends on the same bytes. -/
theorem chunkingInvariance : Obligations.ChunkingInvariance := by
  intro s t t' u u' ms ms' accepted h hrun hrun' hdrain hdrain'
  obtain ⟨bs, hb⟩ := h.buffered_ok
  obtain ⟨hout, hsync, hrs⟩ := streamSemanticsOfEverySchedule s t u ms bs accepted h hb hrun hdrain
  obtain ⟨hout', hsync', hrs'⟩ := streamSemanticsOfEverySchedule s t' u' ms' bs accepted h hb hrun' hdrain'
  exact ⟨hout.trans hout'.symm, hsync.trans hsync'.symm, hrs.trans hrs'.symm⟩

/-- Settles O52: a step is one operation, run on the state without the request it took. -/
theorem everyStepFollowsTheStream : Obligations.EveryStepFollowsTheStream := by
  intro s t hinv h ht
  obtain ⟨e, later, i, -, -, hexec⟩ := step_next ht
  have hinv' : Inv { s with inputs := later } := hinv.of_sameRing ⟨rfl, rfl, rfl, rfl⟩ hinv.noDelivery
  have h' : FollowsTheStream { s with inputs := later } := h.of_sameRecord ⟨⟨rfl, rfl, rfl, rfl⟩, rfl, rfl, rfl⟩ rfl
  exact h'.exec hinv' hexec

end Sys2Proof.Machine
end

section
/-! The dispatch table of RX.STEP (42_rx_framer.md R153): the condition of each row selects its outcome, one of the conditions
always holds, and what the selected outcome does (R154 to R164, R169, R175). -/

namespace Sys2Proof.Machine

/-! ### The framer's fetch -/

/-- The fetch depends on the ring and the sync state only (R64). -/
theorem rxFetch_congr {s u : State} (e : SameRing s u) (hsync : u.sync = s.sync) : rxFetch u = rxFetch s := by
  simp only [rxFetch, hsync, e.fill, e.tail, e.wrap, e.readCell, e.ringRead]

theorem rxFetch_of_sync {s : State} (hs : s.sync ≠ .awaitHeader) :
    rxFetch s = if s.fill = 0 then .ok [] else s.ringRead s.tail 1 := by
  unfold rxFetch
  split
  · exact absurd ‹_› hs
  · rfl

theorem rxFetch_of_empty {s : State} (hs : s.sync ≠ .awaitHeader) (hfill : s.fill = 0) : rxFetch s = .ok [] := by
  rw [rxFetch_of_sync hs, if_pos hfill]

theorem rxFetch_of_byte {s : State} {b : Byte} (hs : s.sync ≠ .awaitHeader) (hfill : 1 ≤ s.fill)
    (hb : s.readCell s.tail = .ok b) : rxFetch s = .ok [b] := by
  rw [rxFetch_of_sync hs, if_neg (by omega)]
  refine (ringRead_eq_ok_iff _ _ _ _).2 ⟨rfl, fun k hk => ?_⟩
  obtain rfl : k = 0 := by simpa using hk
  rw [Nat.add_zero, wrap_of_lt s (readCell_ok_lt hb)]
  exact hb

/-- A header or frame of which bytes are still to come: fewer than four are buffered, or fewer than its length asks for (R159). -/
def Incomplete (s : State) : Prop :=
  s.fill < 4 ∨ ∃ length, s.readCell ((s.tail + 1) % s.cfg.capacity) = .ok length ∧ s.fill < length.toNat + 4

theorem rxFetch_of_incomplete {s : State} (hs : s.sync = .awaitHeader) (h : Incomplete s) : rxFetch s = .ok [] := by
  by_cases hfew : s.fill < 4
  · simp only [rxFetch, hs, if_pos hfew]
  · obtain ⟨length, hlength, hshort⟩ := h.resolve_left hfew
    have hcell : s.readCell (s.wrap (s.tail + 1)) = .ok length := hlength
    have hlt : s.fill < frameSize length := hshort
    simp only [rxFetch, hs, if_neg hfew, hcell, if_pos hlt]

/-! ### The dispatch table -/

/-- The whole candidate `f` stands at `tail`, its check bytes `hi` and `lo` (R160). -/
structure WholeCandidate (s : State) (f : Candidate) (hi lo : Byte) : Prop where
  sync : s.sync = .awaitHeader
  fill : frameSize f.length ≤ s.fill
  payload : f.payload.length = f.length.toNat
  recv : f.recv = beHalf hi lo
  read : s.ringRead s.tail (frameSize f.length) = .ok (f.type :: f.length :: (f.payload ++ [hi, lo]))

theorem WholeCandidate.rxFetch {s : State} {f : Candidate} {hi lo : Byte} (h : WholeCandidate s f hi lo) :
    rxFetch s = .ok (f.type :: f.length :: (f.payload ++ [hi, lo])) :=
  rxFetch_of_candidate h.sync h.fill h.read

theorem WholeCandidate.parse {s : State} {f : Candidate} {hi lo : Byte} (h : WholeCandidate s f hi lo) :
    parseCandidate (f.type :: f.length :: (f.payload ++ [hi, lo])) = some f :=
  (parseCandidate_eq_some_iff _ _).2 ⟨hi, lo, [], rfl, h.payload, h.recv⟩

theorem WholeCandidate.decode {s : State} {f : Candidate} {hi lo : Byte} (h : WholeCandidate s f hi lo) :
    decodeStream s.cfg s.sync (f.type :: f.length :: (f.payload ++ [hi, lo])) =
      if f.computed s.cfg.ckInit = f.recv then .frameok else .framebad := by
  rw [h.sync]
  exact decodeStream_of_candidate s.cfg h.parse

/-- A candidate cut out of the buffered bytes stands whole at `tail`. -/
theorem wholeCandidate_of_buffered {s : State} {bs : List Byte} {f : Candidate} (hs : s.sync = .awaitHeader)
    (hb : s.buffered = .ok bs) (hf : parseCandidate bs = some f) : ∃ hi lo, WholeCandidate s f hi lo := by
  have hfill : frameSize f.length ≤ s.fill := (buffered_length hb) ▸ parseCandidate_length hf
  have hread := ringRead_take hb hfill
  obtain ⟨hi, lo, extra, hbs, hpayload, hrecv⟩ := (parseCandidate_eq_some_iff _ _).1 hf
  refine ⟨hi, lo, hs, hfill, hpayload, hrecv, ?_⟩
  rw [hread, hbs, frameSize, ← hpayload]
  simp [List.take_append]

/-- The condition of a row of R153, as a property of `state`, the fill and the bytes at `tail`. -/
def RowCondition (s : State) : RxOutcome → Prop
  | .s1hit => s.sync = .awaitSync1 ∧ 1 ≤ s.fill ∧ s.readCell s.tail = .ok 0xAA
  | .s1miss => s.sync = .awaitSync1 ∧ 1 ≤ s.fill ∧ ∃ b, s.readCell s.tail = .ok b ∧ b ≠ 0xAA
  | .s2hit => s.sync = .awaitSync2 ∧ 1 ≤ s.fill ∧ s.readCell s.tail = .ok 0xAA
  | .s2miss => s.sync = .awaitSync2 ∧ 1 ≤ s.fill ∧ ∃ b, s.readCell s.tail = .ok b ∧ b ≠ 0xAA
  | .stopempty => s.sync ≠ .awaitHeader ∧ s.fill = 0
  | .hdrwait => s.sync = .awaitHeader ∧ Incomplete s
  | .frameok => ∃ f hi lo, WholeCandidate s f hi lo ∧ f.computed s.cfg.ckInit = f.recv
  | .framebad => ∃ f hi lo, WholeCandidate s f hi lo ∧ f.computed s.cfg.ckInit ≠ f.recv

/-- The condition of a row selects its outcome, in any state (R153). -/
theorem selected_of_rowCondition {s : State} {o : RxOutcome} (h : RowCondition s o) :
    ∃ fs, rxFetch s = .ok fs ∧ decodeStream s.cfg s.sync fs = o := by
  cases o with
  | s1hit =>
    obtain ⟨hs, hfill, hb⟩ := h
    exact ⟨_, rxFetch_of_byte (by simp [hs]) hfill hb, by rw [hs]; rfl⟩
  | s1miss =>
    obtain ⟨hs, hfill, b, hb, hne⟩ := h
    exact ⟨_, rxFetch_of_byte (by simp [hs]) hfill hb, by rw [hs]; exact if_neg hne⟩
  | s2hit =>
    obtain ⟨hs, hfill, hb⟩ := h
    exact ⟨_, rxFetch_of_byte (by simp [hs]) hfill hb, by rw [hs]; rfl⟩
  | s2miss =>
    obtain ⟨hs, hfill, b, hb, hne⟩ := h
    exact ⟨_, rxFetch_of_byte (by simp [hs]) hfill hb, by rw [hs]; exact if_neg hne⟩
  | stopempty =>
    obtain ⟨hs, hfill⟩ := h
    refine ⟨[], rxFetch_of_empty hs hfill, ?_⟩
    cases hsync : s.sync with
    | awaitSync1 => rfl
    | awaitSync2 => rfl
    | awaitHeader => exact absurd hsync hs
  | hdrwait =>
    obtain ⟨hs, hshort⟩ := h
    exact ⟨[], rxFetch_of_incomplete hs hshort, by rw [hs]; rfl⟩
  | frameok =>
    obtain ⟨f, hi, lo, hf, hck⟩ := h
    exact ⟨_, hf.rxFetch, by rw [hf.decode, if_pos hck]⟩
  | framebad =>
    obtain ⟨f, hi, lo, hf, hck⟩ := h
    exact ⟨_, hf.rxFetch, by rw [hf.decode, if_neg hck]⟩

theorem rxOutcome_of_rowCondition {s : State} {o : RxOutcome} (h : RowCondition s o) : rxOutcome s = .ok o := by
  obtain ⟨fs, hf, hd⟩ := selected_of_rowCondition h
  simp only [rxOutcome, hf, hd]

/-- The rows of R153 cover every state of the invariant. -/
theorem Inv.exists_rowCondition {s : State} (h : Inv s) : ∃ o, RowCondition s o := by
  obtain ⟨bs, hb⟩ := h.buffered_ok
  have hlen := buffered_length hb
  by_cases hs : s.sync = .awaitHeader
  · cases hf : parseCandidate bs with
    | none =>
      have hstop : (decodeStream s.cfg s.sync bs).isStop = true := by simp only [hs, decodeStream, hf, RxOutcome.isStop]
      obtain ⟨hne, -⟩ | ⟨-, hshort⟩ := quiescent_of_isStop hb hstop
      · exact absurd hs hne
      · exact ⟨.hdrwait, hs, hshort⟩
    | some f =>
      obtain ⟨hi, lo, hwhole⟩ := wholeCandidate_of_buffered hs hb hf
      by_cases hck : f.computed s.cfg.ckInit = f.recv
      · exact ⟨.frameok, f, hi, lo, hwhole, hck⟩
      · exact ⟨.framebad, f, hi, lo, hwhole, hck⟩
  · cases bs with
    | nil => exact ⟨.stopempty, hs, hlen.symm⟩
    | cons b bs =>
      have hfill : 1 ≤ s.fill := by
        rw [← hlen]
        exact Nat.succ_pos _
      have hcell : s.readCell s.tail = .ok b := by
        have hfirst := ((ringRead_eq_ok_iff _ _ _ _).1 hb).2 0 (Nat.succ_pos _)
        rwa [Nat.add_zero, wrap_of_lt s h.tailInRing] at hfirst
      cases hsync : s.sync with
      | awaitHeader => exact absurd hsync hs
      | awaitSync1 =>
        by_cases hmarker : b = 0xAA
        · exact ⟨.s1hit, hsync, hfill, hmarker ▸ hcell⟩
        · exact ⟨.s1miss, hsync, hfill, b, hcell, hmarker⟩
      | awaitSync2 =>
        by_cases hmarker : b = 0xAA
        · exact ⟨.s2hit, hsync, hfill, hmarker ▸ hcell⟩
        · exact ⟨.s2miss, hsync, hfill, b, hcell, hmarker⟩

/-- The dispatch table (R153): the rows cover every state and each selects its own outcome, so an outcome is selected only under
the condition of its row. -/
theorem Inv.rxOutcome_eq_ok_iff {s : State} (h : Inv s) (o : RxOutcome) : rxOutcome s = .ok o ↔ RowCondition s o := by
  refine ⟨fun ho => ?_, rxOutcome_of_rowCondition⟩
  obtain ⟨o', hrow⟩ := h.exists_rowCondition
  obtain rfl : o' = o := Except.ok.inj ((rxOutcome_of_rowCondition hrow).symm.trans ho)
  exact hrow

/-- A whole candidate with its check, field by field as R160 and R161 read it. -/
theorem exists_wholeCandidate_iff (s : State) (P : Half → Half → Prop) :
    (∃ f hi lo, WholeCandidate s f hi lo ∧ P (f.computed s.cfg.ckInit) f.recv) ↔
      s.sync = .awaitHeader ∧ ∃ type length hi lo payload, length.toNat + 4 ≤ s.fill ∧ payload.length = length.toNat ∧
        s.ringRead s.tail (length.toNat + 4) = .ok (type :: length :: (payload ++ [hi, lo])) ∧
        P (f16 s.cfg.ckInit (type :: length :: payload)) (beHalf hi lo) := by
  constructor
  · rintro ⟨⟨type, length, payload, recv⟩, hi, lo, ⟨hsync, hfill, hpayload, hrecv, hread⟩, hP⟩
    exact ⟨hsync, type, length, hi, lo, payload, hfill, hpayload, hread, hrecv ▸ hP⟩
  · rintro ⟨hsync, type, length, hi, lo, payload, hfill, hpayload, hread, hP⟩
    exact ⟨⟨type, length, payload, beHalf hi lo⟩, hi, lo, ⟨hsync, hfill, hpayload, rfl, hread⟩, hP⟩

/-! ### The selected outcome -/

/-- Under the condition of its row an outcome runs (R18, R153). -/
theorem whenSelected_of_rowCondition {s t : State} {o : RxOutcome} (h : RowCondition s o)
    {k : List Byte → Host.Outcome State Fault Refusal} (hk : ∀ fs, k fs = .next t) : whenSelected o s k = .next t := by
  obtain ⟨fs, hf, hd⟩ := selected_of_rowCondition h
  simp only [whenSelected, hf, hd, if_true, hk]

/-- A candidate with a wrong checksum at `tail` is reported and skipped (R163). -/
theorem execRxStepFramebad_of_candidate {s : State} {f : Candidate} {hi lo : Byte} (h : WholeCandidate s f hi lo)
    (hck : f.computed s.cfg.ckInit ≠ f.recv) :
    execRxStepFramebad s = .next
      ((s.raise (.ckFault f.type f.length f.recv (f.computed s.cfg.ckInit))).consume (frameSize f.length) .awaitSync1) := by
  simp only [execRxStepFramebad, whenSelected, h.rxFetch, h.decode, if_neg hck, if_true, h.parse]

/-! ### What the HOST holds -/

/-- What RX goes by and reports is the same: the ring, the sync state and `OUT`. -/
structure SameView (s u : State) : Prop extends SameRing s u where
  sync : u.sync = s.sync
  out : u.out = s.out

theorem SameView.consume {s u : State} (e : SameView s u) (n : Nat) (st : SyncState) :
    SameView (s.consume n st) (u.consume n st) where
  cfg := e.cfg
  buf := e.buf
  head := e.head
  tail := by rw [State.consume_tail, State.consume_tail, e.wrap, e.tail]
  sync := rfl
  out := e.out

theorem SameView.deliver {s u : State} (e : SameView s u) (f : Candidate) : SameView (deliver f s) (deliver f u) := by
  rw [deliver_frame f s, deliver_frame f u]
  exact ⟨⟨e.cfg, e.buf, e.head, e.tail⟩, e.sync, by rw [e.out]⟩

/-- An outcome is selected, or held, in both of two states that RX cannot tell apart. -/
theorem SameView.whenSelected {s u t : State} (e : SameView s u) {o : RxOutcome}
    {k k' : List Byte → Host.Outcome State Fault Refusal}
    (hk : ∀ fs, k fs = .next t → ∃ v, k' fs = .next v ∧ SameView t v) (h : whenSelected o s k = .next t) :
    ∃ v, whenSelected o u k' = .next v ∧ SameView t v := by
  unfold Machine.whenSelected at h ⊢
  rw [rxFetch_congr e.toSameRing e.sync, e.cfg, e.sync]
  split at h
  · cases h
  · split_ifs at h with ho
    · simp only [if_pos ho]
      exact hk _ h
    · cases h
      simp only [if_neg ho]
      exact ⟨u, rfl, e⟩

theorem SameView.execRxStepFrameok {s u t : State} (e : SameView s u) (h : execRxStepFrameok s = .next t) :
    ∃ v, execRxStepFrameok u = .next v ∧ SameView t v := by
  refine e.whenSelected (fun fs hfs => ?_) h
  cases hf : parseCandidate fs with
  | none =>
    simp only [hf] at hfs ⊢
    cases hfs
    exact ⟨u, rfl, e⟩
  | some f =>
    simp only [hf] at hfs ⊢
    cases hfs
    exact ⟨_, rfl, (e.deliver f).consume _ _⟩

/-! ### PL.READ and RX.WRITE -/

theorem readPayload_in_window {s : State} {k n : Nat} {b : Byte} (hd : s.delivery = some n) (hk : k < n)
    (hb : s.readCell (s.wrap (s.tail + 2 + k)) = .ok b) : readPayload k s = .next (s.respond (.payloadByte b)) := by
  simp only [readPayload, hd, if_pos hk, hb]

theorem readPayload_closed {s : State} (k : Nat) (hd : s.delivery = none) : readPayload k s = .refused .windowClosed := by
  simp only [readPayload, hd]

theorem readPayload_past_payload {s : State} {k n : Nat} (hd : s.delivery = some n) (hk : n ≤ k) :
    readPayload k s = .refused (.payloadIndex k) := by
  simp only [readPayload, hd, if_neg (Nat.not_lt.2 hk)]

/-- A write that does not fit is held (R152; log 9). -/
theorem execRxWrite_held {s : State} {v : List Byte} (hv : v ≠ []) (h : s.rxSpace < v.length ∨ s.cfg.rxChunk < v.length) :
    execRxWrite v s = .next s := by
  have hlarge : ¬ (v.length ≤ s.rxSpace ∧ v.length ≤ s.cfg.rxChunk) := by omega
  simp only [execRxWrite, List.isEmpty_iff, if_neg hv, if_neg hlarge, hold]

/-! ### The obligations -/

/-- Settles O17: the table of `RowCondition`, with the two frame rows spelled out field by field. -/
theorem dispatchTableOfRxStep : Obligations.DispatchTableOfRxStep := by
  intro s h
  exact ⟨h.rxOutcome_eq_ok_iff .s1hit, h.rxOutcome_eq_ok_iff .s1miss, h.rxOutcome_eq_ok_iff .s2hit,
    h.rxOutcome_eq_ok_iff .s2miss, h.rxOutcome_eq_ok_iff .stopempty, h.rxOutcome_eq_ok_iff .hdrwait,
    (h.rxOutcome_eq_ok_iff .frameok).trans (exists_wholeCandidate_iff s (· = ·)),
    (h.rxOutcome_eq_ok_iff .framebad).trans (exists_wholeCandidate_iff s (· ≠ ·))⟩

/-- Settles O18: the outcome the buffered bytes select, with what `advance` says it consumes. -/
theorem rxStepTakesExactlyOneOutcome : Obligations.RxStepTakesExactlyOneOutcome := by
  intro s h
  obtain ⟨bs, hb⟩ := h.buffered_ok
  obtain ⟨ho, hstop, hgo⟩ := rxStep_of_buffered h hb
  refine ⟨_, ho, fun o' hne => ?_, ?_⟩
  · rw [exec_toInstr]
    exact runOutcome_of_ne hb hne.symm
  · rw [exec_toInstr]
    cases hs : (decodeStream s.cfg s.sync bs).isStop with
    | true => exact ⟨s, hstop hs, fun _ => rfl, fun hn => absurd hn (by decide)⟩
    | false =>
      obtain ⟨t, ht, -, -, -, -, -, -, -, -, -, hfill, htail⟩ := hgo hs
      obtain ⟨hpos, hle, -⟩ := parse_go s.cfg s.sync bs hs
      rw [buffered_length hb] at hle
      exact ⟨t, ht, fun hn => absurd hn (by decide), fun _ => ⟨_, hpos, hle, htail, hfill⟩⟩

/-- Settles O19: the two states differ in nothing that RX goes by. -/
theorem hostCannotInfluenceTheFramer : Obligations.HostCannotInfluenceTheFramer := by
  intro s t inputs results handed sent ht
  have hview : SameView s { s with inputs := inputs, results := results, handed := handed, sent := sent } :=
    ⟨⟨rfl, rfl, rfl, rfl⟩, rfl, rfl⟩
  obtain ⟨u, hu, e⟩ := hview.execRxStepFrameok ht
  exact ⟨u, hu, e.tail, e.sync, e.head, e.out, e.readCell⟩

/-- Settles O59: a waiting header is a quiescent state. -/
theorem largeRingsNeverDeadlock : Obligations.LargeRingsNeverDeadlock := by
  intro s h hd ho
  obtain ⟨hs, hshort⟩ := (h.rxOutcome_eq_ok_iff .hdrwait).1 ho
  exact rxSpace_pos_of_quiescent h hd (.inr ⟨hs, hshort⟩)

/-- Settles O8. -/
theorem s1HitConsumesTheMarker : Obligations.S1HitConsumesTheMarker :=
  fun _ hs hfill hb => whenSelected_of_rowCondition (o := .s1hit) ⟨hs, hfill, hb⟩ fun _ => rfl

/-- Settles O9. -/
theorem s1MissSkipsTheByte : Obligations.S1MissSkipsTheByte :=
  fun _ b hs hfill hb hne => whenSelected_of_rowCondition (o := .s1miss) ⟨hs, hfill, b, hb, hne⟩ fun _ => rfl

/-- Settles O10. -/
theorem s2HitReachesTheHeader : Obligations.S2HitReachesTheHeader :=
  fun _ hs hfill hb => whenSelected_of_rowCondition (o := .s2hit) ⟨hs, hfill, hb⟩ fun _ => rfl

/-- Settles O11. -/
theorem s2MissHuntsAgain : Obligations.S2MissHuntsAgain :=
  fun _ b hs hfill hb hne => whenSelected_of_rowCondition (o := .s2miss) ⟨hs, hfill, b, hb, hne⟩ fun _ => rfl

/-- Settles O12. -/
theorem stopEmptyChangesNothing : Obligations.StopEmptyChangesNothing := by
  intro s hs hfill
  have hsync : s.sync ≠ .awaitHeader := by rcases hs with hs | hs <;> simp [hs]
  exact whenSelected_of_rowCondition (o := .stopempty) ⟨hsync, hfill⟩ fun _ => rfl

/-- Settles O13. -/
theorem hdrWaitChangesNothing : Obligations.HdrWaitChangesNothing :=
  fun _ hs hshort => whenSelected_of_rowCondition (o := .hdrwait) ⟨hs, hshort⟩ fun _ => rfl

/-- Settles O14: the delivery, then the candidate is consumed. -/
theorem frameOkDeliversTheTelegram : Obligations.FrameOkDeliversTheTelegram := by
  intro s type length hi lo payload hs hfill hp hr hck
  have hexec := execRxStepFrameok_of_candidate (f := ⟨type, length, payload, beHalf hi lo⟩) hs hfill hp rfl hr hck
  refine ⟨_, hexec, ?_⟩
  rw [deliver_frame]
  rfl

/-- Settles O16. -/
theorem frameBadReportsAndSkips : Obligations.FrameBadReportsAndSkips := by
  intro s type length hi lo payload hs hfill hp hr hck
  exact execRxStepFramebad_of_candidate (f := ⟨type, length, payload, beHalf hi lo⟩) ⟨hs, hfill, hp, rfl, hr⟩ hck

/-- Settles O20: the write is accepted, and its range ends inside the ring. -/
theorem rxWriteStoresTheBytes : Obligations.RxWriteStoresTheBytes := by
  intro s v hne hroom hchunk
  refine ⟨s.store v, execRxWrite_accepted hne hroom hchunk, rfl, fun k hk => ?_, fun a ha => readCell_store_outside ha⟩
  have hend : v.length ≤ s.cfg.capacity - s.head := Nat.le_trans hroom (Nat.min_le_right _ _)
  exact readCell_store_inside hk (by omega)

/-- Settles O21: the larger write by its check, the empty one by the refusal that comes before it. -/
theorem rxWriteHoldsWhatDoesNotFit : Obligations.RxWriteHoldsWhatDoesNotFit :=
  fun _ _ => ⟨execRxWrite_held, fun hv => by rw [hv]; rfl⟩

/-- Settles O27: the three cases of the window. -/
theorem plReadAnswersInTheWindowOnly : Obligations.PlReadAnswersInTheWindowOnly :=
  fun _ k => ⟨fun _ _ => readPayload_in_window, readPayload_closed k, fun _ => readPayload_past_payload⟩

end Sys2Proof.Machine
end

section
/-! FX (43_fixed_point.md): a big-endian field as a number, the conversion to thousandths, the floor split of a Q20.11 word
and its rounding, and what each operation answers. -/

namespace Sys2Proof.Machine

/-! ### Big-endian fields -/

/-- A byte put at bit `k`, below all the bits that are already in use, adds its value times `2^k`. -/
theorem or_byteAt_toNat {n k : Nat} {acc : BitVec n} (b : Byte) (hacc : 2 ^ (k + 8) ∣ acc.toNat) (hk : k + 8 ≤ n) :
    (acc ||| b.zeroExtend n <<< k).toNat = acc.toNat + b.toNat * 2 ^ k := by
  have hbyte : b.toNat * 2 ^ k < 2 ^ (k + 8) := by
    rw [Nat.add_comm, Nat.pow_add]
    exact Nat.mul_lt_mul_of_pos_right b.isLt (Nat.two_pow_pos k)
  have hfits : (b.zeroExtend n <<< k).toNat = b.toNat * 2 ^ k := by
    have hb : b.toNat < 2 ^ n := b.isLt.trans_le (Nat.pow_le_pow_right Nat.two_pos (by omega))
    rw [BitVec.toNat_shiftLeft, BitVec.toNat_setWidth, Nat.mod_eq_of_lt hb, Nat.shiftLeft_eq,
      Nat.mod_eq_of_lt (hbyte.trans_le (Nat.pow_le_pow_right Nat.two_pos hk))]
  obtain ⟨q, hq⟩ := hacc
  rw [BitVec.toNat_or, hfits, hq, Nat.two_pow_add_eq_or_of_lt hbyte]

theorem beHalf_toNat (b0 b1 : Byte) : (beHalf b0 b1).toNat = b0.toNat * 2 ^ 8 + b1.toNat := by
  have h0 : (b0.zeroExtend 16 <<< 8).toNat = b0.toNat * 2 ^ 8 := by
    simpa using or_byteAt_toNat (n := 16) (k := 8) (acc := 0) b0 (by simp) (by omega)
  have h1 := or_byteAt_toNat (k := 0) (acc := b0.zeroExtend 16 <<< 8) b1 (by omega) (by omega)
  simpa [beHalf, h0] using h1

theorem beWord_toNat (b0 b1 b2 b3 : Byte) :
    (beWord b0 b1 b2 b3).toNat = b0.toNat * 2 ^ 24 + b1.toNat * 2 ^ 16 + b2.toNat * 2 ^ 8 + b3.toNat := by
  have h0 : (b0.zeroExtend 32 <<< 24).toNat = b0.toNat * 2 ^ 24 := by
    simpa using or_byteAt_toNat (n := 32) (k := 24) (acc := 0) b0 (by simp) (by omega)
  have h1 := or_byteAt_toNat (k := 16) (acc := b0.zeroExtend 32 <<< 24) b1 (by omega) (by omega)
  have h2 := or_byteAt_toNat (k := 8) b2 (by rw [h1]; omega) (by omega)
  have h3 := or_byteAt_toNat (k := 0) b3 (by rw [h2]; omega) (by omega)
  rw [h2, h1, h0] at h3
  simpa [beWord] using h3

/-- The sign of a 16-bit field is bit 7 of its first byte. -/
theorem sext16_beHalf (b0 b1 : Byte) :
    sext16 (beHalf b0 b1) =
      if b0.toNat < 128 then ((beHalf b0 b1).toNat : Int) else (beHalf b0 b1).toNat - 2 ^ 16 := by
  have hsign : 2 * (beHalf b0 b1).toNat < 2 ^ 16 ↔ b0.toNat < 128 := by
    rw [beHalf_toNat]
    omega
  simp only [sext16, BitVec.toInt_eq_toNat_cond, hsign]
  norm_num

/-- The sign of a 32-bit field is bit 7 of its first byte. -/
theorem sext32_beWord (b0 b1 b2 b3 : Byte) :
    sext32 (beWord b0 b1 b2 b3) =
      if b0.toNat < 128 then ((beWord b0 b1 b2 b3).toNat : Int) else (beWord b0 b1 b2 b3).toNat - 2 ^ 32 := by
  have hsign : 2 * (beWord b0 b1 b2 b3).toNat < 2 ^ 32 ↔ b0.toNat < 128 := by
    rw [beWord_toNat]
    omega
  simp only [sext32, BitVec.toInt_eq_toNat_cond, hsign]
  norm_num

/-! ### Thousandths -/

theorem milli_eq_div (w f : Nat) : milli w f = f * 125 / 2 ^ (w - 3) := Nat.shiftRight_eq_div_pow _ _

/-- R193 (a): `125 / 2^(w - 3)` is `1000 / 2^w`. -/
theorem milli_eq_floor {w : Nat} (hw : 3 ≤ w) (f : Nat) : milli w f = f * 1000 / 2 ^ w := by
  have hpow : 2 ^ w = 2 ^ (w - 3) * 8 := by
    rw [← Nat.pow_add (m := w - 3) (n := 3), Nat.sub_add_cancel hw]
  calc milli w f = f * 125 / 2 ^ (w - 3) := milli_eq_div w f
    _ = f * 125 * 8 / (2 ^ (w - 3) * 8) := (Nat.mul_div_mul_right _ _ (by omega)).symm
    _ = f * 1000 / 2 ^ w := by rw [hpow, Nat.mul_assoc f]

/-- R193 (b). -/
theorem milli_le_999 {w f : Nat} (hw : 3 ≤ w) (hf : f < 2 ^ w) : milli w f ≤ 999 := by
  rw [milli_eq_floor hw]
  exact Nat.le_of_lt_succ (Nat.div_lt_of_lt_mul (Nat.mul_lt_mul_of_pos_right hf (by omega)))

/-- R193 (c). -/
theorem milli_mono (w : Nat) {f g : Nat} (h : f ≤ g) : milli w f ≤ milli w g := by
  rw [milli_eq_div, milli_eq_div]
  exact Nat.div_le_div_right (Nat.mul_le_mul_right 125 h)

/-! ### A Q20.11 word -/

/-- The arithmetic shift by the 11 fraction bits is a floor (R199 (d)). -/
theorem shiftRight_fractionBits (x : Int) : x >>> (11 : Nat) = x / 2048 := Int.shiftRight_eq_div_pow x 11

theorem gaugeInt_eq_div (v : Word) : gaugeInt v = v.toInt / 2048 := shiftRight_fractionBits _

theorem gaugeBits_eq_mod (v : Word) : gaugeBits v = v.toNat % 2048 := by
  rw [gaugeBits, BitVec.toNat_and]
  exact Nat.and_two_pow_sub_one_eq_mod v.toNat 11

/-- The fraction bits are the non-negative remainder of the signed value, because 2048 divides `2^32`. -/
theorem gaugeBits_eq_emod (v : Word) : (gaugeBits v : Int) = v.toInt % 2048 := by
  rw [gaugeBits_eq_mod, BitVec.toInt_eq_toNat_cond]
  split_ifs <;> omega

theorem toInt_eq_gaugeInt_add_gaugeBits (v : Word) : v.toInt = 2048 * gaugeInt v + gaugeBits v := by
  rw [gaugeInt_eq_div, gaugeBits_eq_emod, Int.mul_ediv_add_emod]

theorem gaugeBits_lt (v : Word) : gaugeBits v < 2048 := by
  rw [gaugeBits_eq_mod]
  exact Nat.mod_lt _ (by omega)

theorem gaugeInt_bounds (v : Word) : -1048576 ≤ gaugeInt v ∧ gaugeInt v ≤ 1048575 := by
  have hlo := v.le_toInt
  have hhi := v.toInt_lt
  rw [gaugeInt_eq_div]
  omega

/-- Away from the negative values under `sub_half`, the rounding is half up (R197). -/
theorem round11_eq_halfUp {r : RoundNeg} {v : Word} (h : 0 ≤ v.toInt ∨ r = .addHalf) :
    round11 r v = (v.toInt + 1024) / 2048 := by
  rcases h with hnonneg | rfl
  · simp only [round11, sext32, if_pos hnonneg, shiftRight_fractionBits]
  · simp only [round11, sext32, shiftRight_fractionBits, ite_self]

theorem round11_subHalf_of_neg {v : Word} (h : v.toInt < 0) : round11 .subHalf v = (v.toInt - 1024) / 2048 := by
  simp only [round11, sext32, if_neg (Int.not_le.2 h), shiftRight_fractionBits]

/-! ### What the operations with a domain answer -/

theorem execFxMilli_in_domain {w f : Nat} (hw : 3 ≤ w) (hw' : w ≤ 32) (hf : f < 2 ^ w) (s : State) :
    execFxMilli w f s = .next (s.respond (.milli (milli w f))) := by
  rw [execFxMilli, if_pos ⟨hw, hw'⟩, if_pos hf]

theorem execFxMilli_width {w : Nat} (h : w < 3 ∨ 32 < w) (f : Nat) (s : State) :
    execFxMilli w f s = .refused (.milliWidth w) := if_neg (by omega)

theorem execFxMilli_fraction {w f : Nat} (hw : 3 ≤ w) (hw' : w ≤ 32) (hf : 2 ^ w ≤ f) (s : State) :
    execFxMilli w f s = .refused (.milliFraction w f) := by
  rw [execFxMilli, if_pos ⟨hw, hw'⟩, if_neg (Nat.not_lt.2 hf)]

/-! ### The obligations -/

/-- Settles O45. -/
theorem milliIsTheFloorOfThousandths : Obligations.MilliIsTheFloorOfThousandths :=
  fun w f hw hf => ⟨milli_eq_floor hw f, milli_le_999 hw hf, fun _ => milli_mono w⟩

/-- Settles O46: the integer part and the fraction bits are the quotient and the remainder by 2048. -/
theorem gaugeIsSplitByFloor : Obligations.GaugeIsSplitByFloor := by
  intro s v
  have hmilli : milli 11 (gaugeBits v) = gaugeBits v * 125 / 2 ^ 8 := milli_eq_div 11 _
  have hle : milli 11 (gaugeBits v) ≤ 999 := milli_le_999 (by omega) (gaugeBits_lt v)
  obtain ⟨hlo, hhi⟩ := gaugeInt_bounds v
  refine ⟨gaugeInt v, gaugeBits v, toInt_eq_gaugeInt_add_gaugeBits v, gaugeBits_lt v, hlo, hhi, hmilli ▸ hle, ?_⟩
  rw [← hmilli]
  rfl

/-- Settles O42. -/
theorem be16AssemblesBigEndian : Obligations.Be16AssemblesBigEndian :=
  fun _ b0 b1 => ⟨beHalf b0 b1, rfl, beHalf_toNat b0 b1, sext16_beHalf b0 b1⟩

/-- Settles O43. -/
theorem be32AssemblesBigEndian : Obligations.Be32AssemblesBigEndian :=
  fun _ b0 b1 b2 b3 => ⟨beWord b0 b1 b2 b3, rfl, beWord_toNat b0 b1 b2 b3, sext32_beWord b0 b1 b2 b3⟩

/-- Settles O44: the two checks, and the shift as a division. -/
theorem milliConvertsInItsDomain : Obligations.MilliConvertsInItsDomain := by
  intro s w f
  refine ⟨fun hw hw' hf => ?_, fun h => execFxMilli_width h f s, fun hw hw' hf => execFxMilli_fraction hw hw' hf s⟩
  rw [← milli_eq_div]
  exact execFxMilli_in_domain hw hw' hf s

/-- Settles O47: a 16-bit fraction is in the domain of `w = 16`. -/
theorem counterKeepsItsIntegerPart : Obligations.CounterKeepsItsIntegerPart := by
  intro s ip fp
  have hmilli : milli 16 fp.toNat = fp.toNat * 125 / 2 ^ 13 := milli_eq_div 16 _
  rw [← hmilli]
  exact ⟨rfl, milli_le_999 (by omega) fp.isLt⟩

/-- Settles O48: below 1000 the hundreds are one digit. -/
theorem digits3GivesThreeDigits : Obligations.Digits3GivesThreeDigits := by
  intro s f
  refine ⟨fun hf => ⟨f / 100, f / 10 % 10, f % 10, if_pos hf, ?_⟩, fun hf => if_neg (Nat.not_le.2 hf)⟩
  omega

/-- Settles O49: taking half off is adding it and then taking a whole unit off, which lowers the floor by one. -/
theorem round11FollowsRoundNeg : Obligations.Round11FollowsRoundNeg := by
  intro s x
  refine ⟨round11 s.cfg.roundNeg x, rfl, fun h => round11_eq_halfUp (.inl h), fun hneg hsub => ?_,
    fun _ hadd => round11_eq_halfUp (.inr hadd)⟩
  rw [hsub, round11_subHalf_of_neg hneg]
  omega

end Sys2Proof.Machine
end

section
/-! The reports (60_exceptions.md R220 to R235): what each operation appends to `OUT`, and that the reports no row of R220's table
gives to an operation are never raised. -/

namespace Sys2Proof.Machine

/-! ### What an operation reports -/

/-- From `s` to `t` `OUT` has only gained events, each one that R220 names for the operation `i`, and at most one unless `i` is the
loop RX.DRAIN (R165, R231). -/
def Reports (i : Instr) (s t : State) : Prop :=
  ∃ es, t.out = s.out ++ es ∧ (∀ e ∈ es, mayReport i e = true) ∧ (i ≠ .rxDrain → es.length ≤ 1)

theorem Reports.of_out_eq {i : Instr} {s t : State} (h : t.out = s.out) : Reports i s t :=
  ⟨[], by rw [h, List.append_nil], List.forall_mem_nil _, fun _ => Nat.zero_le 1⟩

theorem Reports.of_out_append {i : Instr} {s t : State} {e : Event} (he : mayReport i e = true) (h : t.out = s.out ++ [e]) :
    Reports i s t :=
  ⟨[e], h, fun _ hmem => List.mem_singleton.1 hmem ▸ he, fun _ => Nat.le_refl 1⟩

/-- RX.DRAIN, being a loop of others, may report what each of its parts reports (R165). -/
theorem Reports.trans_rxDrain {s t u : State} (h : Reports .rxDrain s t) (h' : Reports .rxDrain t u) : Reports .rxDrain s u := by
  obtain ⟨es, hout, hmay, -⟩ := h
  obtain ⟨es', hout', hmay', -⟩ := h'
  exact ⟨es ++ es', by rw [hout', hout, List.append_assoc], fun e he => (List.mem_append.1 he).elim (hmay e) (hmay' e),
    fun hn => absurd rfl hn⟩

/-- An operation that only gives a response reports nothing (R230). -/
theorem Reports.of_respond {i : Instr} {s t : State} {r : Result}
    (h : (.next (s.respond r) : Host.Outcome State Fault Refusal) = .next t) : Reports i s t := by
  cases h
  exact .of_out_eq rfl

/-! ### RX -/

/-- An outcome of RX.STEP reports what it does when it is selected; it holds otherwise (R18, R153). -/
theorem Reports.of_whenSelected {i : Instr} {o : RxOutcome} {s t : State} {k : List Byte → Host.Outcome State Fault Refusal}
    (h : whenSelected o s k = .next t) (hk : ∀ fs, k fs = .next t → Reports i s t) : Reports i s t := by
  obtain ⟨fs, -, -, hrun⟩ | rfl := whenSelected_next h
  · exact hk fs hrun
  · exact .of_out_eq rfl

/-- An outcome that only moves on in the stream, or not at all, reports nothing (R154 to R159). -/
theorem Reports.of_whenSelected_silent {i : Instr} {o : RxOutcome} {s t u : State} (hu : u.out = s.out)
    (h : whenSelected o s (fun _ => .next u) = .next t) : Reports i s t :=
  .of_whenSelected h fun _ hrun => .of_out_eq (Host.Outcome.next.inj hrun ▸ hu)

/-- A valid frame is reported as a Telegram, once (R162, R168). -/
theorem execRxStepFrameok_reports {s t : State} (h : execRxStepFrameok s = .next t) : Reports .rxStepFrameok s t := by
  refine .of_whenSelected h fun fs hrun => ?_
  split at hrun
  · cases hrun
    exact .of_out_eq rfl
  · cases hrun
    exact .of_out_append rfl (by rw [State.consume_out, deliver_frame])

/-- A bad frame is reported as a CkFault, once (R163, R221). -/
theorem execRxStepFramebad_reports {s t : State} (h : execRxStepFramebad s = .next t) : Reports .rxStepFramebad s t := by
  refine .of_whenSelected h fun fs hrun => ?_
  split at hrun
  · cases hrun
    exact .of_out_eq rfl
  · cases hrun
    exact .of_out_append rfl rfl

theorem runOutcome_reports {o : RxOutcome} {s t : State} (h : runOutcome o s = .next t) : Reports o.toInstr s t := by
  cases o with
  | s1hit => exact .of_whenSelected_silent (State.consume_out s _ _) h
  | s1miss => exact .of_whenSelected_silent (State.consume_out s _ _) h
  | s2hit => exact .of_whenSelected_silent (State.consume_out s _ _) h
  | s2miss => exact .of_whenSelected_silent (State.consume_out s _ _) h
  | stopempty => exact .of_whenSelected_silent rfl h
  | hdrwait => exact .of_whenSelected_silent rfl h
  | frameok => exact execRxStepFrameok_reports h
  | framebad => exact execRxStepFramebad_reports h

/-- What an RX.STEP may report RX.DRAIN may, standing for it (R165, R220). -/
theorem mayReport_rxDrain_of_toInstr {o : RxOutcome} {e : Event} (h : mayReport o.toInstr e = true) :
    mayReport .rxDrain e = true := by
  cases o with
  | frameok =>
    cases e with
    | telegram => rfl
    | _ => cases h
  | framebad =>
    cases e with
    | ckFault => rfl
    | _ => cases h
  | _ => cases h

theorem execRxDrain_reports {s t : State} (h : execRxDrain s = .next t) : Reports .rxDrain s t :=
  drainLoop_rel (fun _ => .of_out_eq rfl) .trans_rxDrain
    (fun hstep => by
      obtain ⟨es, hout, hmay, -⟩ := runOutcome_reports hstep
      exact ⟨es, hout, fun e he => mayReport_rxDrain_of_toInstr (hmay e he), fun hn => absurd rfl hn⟩) h

theorem execRxWrite_reports {v : List Byte} {s t : State} (h : execRxWrite v s = .next t) : Reports (.rxWrite v) s t := by
  obtain ⟨-, ⟨-, -, rfl⟩ | rfl⟩ := execRxWrite_next h
  · exact .of_out_eq rfl
  · exact .of_out_eq rfl

/-! ### TX -/

/-- TX.ENCODE reports on both sides of its length check: the built frame, or EncodeFault (R131, R224; log 11). -/
theorem execTxEncode_reports {type : Byte} {payload : List Byte} {s t : State} (h : execTxEncode type payload s = .next t) :
    Reports (.txEncode type payload) s t := by
  rcases Nat.lt_or_ge s.cfg.maxPayload payload.length with hlarge | hfits
  · obtain rfl := Host.Outcome.next.inj ((execTxEncode_of_too_large type hlarge).symm.trans h)
    exact .of_out_append rfl rfl
  · obtain rfl := Host.Outcome.next.inj ((execTxEncode_of_fits type hfits).symm.trans h)
    exact .of_out_append rfl rfl

/-- TX.WRITE reports LINK's failure only (R135, R226). -/
theorem execTxWrite_reports {frame : List Byte} {answer : LinkAnswer} {s t : State}
    (h : execTxWrite frame answer s = .next t) : Reports (.txWrite frame answer) s t := by
  rcases execTxWrite_next h with ⟨later, -, ⟨-, rfl⟩ | ⟨-, rfl⟩⟩ | ⟨-, rfl⟩
  · exact .of_out_eq rfl
  · exact .of_out_append rfl rfl
  · exact .of_out_eq rfl

/-! ### Every operation -/

/-- RESET aside, which starts a new `OUT` (R260), an operation reports what R220 names for it. -/
theorem exec_reports {i : Instr} {s t : State} (hi : i ≠ .reset) (h : exec i s = .next t) : Reports i s t := by
  cases i with
  | rxStepS1hit => exact runOutcome_reports (o := .s1hit) h
  | rxStepS1miss => exact runOutcome_reports (o := .s1miss) h
  | rxStepS2hit => exact runOutcome_reports (o := .s2hit) h
  | rxStepS2miss => exact runOutcome_reports (o := .s2miss) h
  | rxStepStopempty => exact runOutcome_reports (o := .stopempty) h
  | rxStepHdrwait => exact runOutcome_reports (o := .hdrwait) h
  | rxStepFrameok => exact runOutcome_reports (o := .frameok) h
  | rxStepFramebad => exact runOutcome_reports (o := .framebad) h
  | txEncode type payload => exact execTxEncode_reports h
  | txEncodeToolarge type n =>
    obtain rfl := execTxEncodeToolarge_next h
    exact .of_out_append rfl rfl
  | txWrite frame answer => exact execTxWrite_reports h
  | ckF16 d => exact .of_respond h
  | rxWrite v => exact execRxWrite_reports h
  | rxDrain => exact execRxDrain_reports h
  | plRead k =>
    obtain ⟨-, -, -, -, -, rfl⟩ := readPayload_next h
    exact .of_respond rfl
  | fxBe16 b0 b1 => exact .of_respond h
  | fxBe32 b0 b1 b2 b3 => exact .of_respond h
  | fxMilli w f =>
    obtain ⟨r, rfl⟩ := execFxMilli_next h
    exact .of_respond rfl
  | fxGauge v => exact .of_respond h
  | fxCounter ip fp => exact .of_respond h
  | fxDigits3 f =>
    obtain ⟨r, rfl⟩ := execFxDigits3_next h
    exact .of_respond rfl
  | fxRound11 x => exact .of_respond h
  | reset => exact absurd rfl hi

/-- The rows of R220 that name an operation are those of the other five reports (R222, R223, R225, R227). -/
theorem ne_unraised_of_mayReport {i : Instr} {e : Event} (h : mayReport i e = true) :
    e ≠ .lenFault ∧ e ≠ .typeFault ∧ e ≠ .ioReadFault ∧ e ≠ .persistFault := by
  unfold mayReport at h
  split at h <;> simp at h ⊢

/-! ### The obligations -/

/-- Settles O56: by the operation; RX.DRAIN reports what its RX.STEPs do. -/
theorem reportsComeFromTheirOperations : Obligations.ReportsComeFromTheirOperations :=
  fun _ _ _ hi h => exec_reports hi h

/-- Settles O57: a step runs one operation; RESET leaves no event, and any other adds only events that a row of R220 gives it. -/
theorem fourReportsAreNeverRaised : Obligations.FourReportsAreNeverRaised := by
  intro s t ht e he
  obtain ⟨-, later, i, -, -, hexec⟩ := step_next ht
  by_cases hi : i = .reset
  · subst hi
    cases hexec
    exact absurd he List.not_mem_nil
  · obtain ⟨es, hout, hmay, -⟩ := exec_reports hi hexec
    rw [hout, List.mem_append] at he
    exact he.imp id fun hnew => ne_unraised_of_mayReport (hmay e hnew)

end Sys2Proof.Machine
end

section
/-! RESET, the end of a run and the capacity deadlock (70_reset_and_hazards.md): in a quiescent state the selected outcome of RX.STEP
is a *stop*, so neither the framer nor `parse` goes on. -/

namespace Sys2Proof.Machine

/-! ### Quiescent states -/

/-- The two forms of quiescence are the rows of the two *stop* outcomes (R153, R279). -/
theorem Quiescent.exists_stop {s : State} (h : Quiescent s) : ∃ o, o.isStop = true ∧ RowCondition s o := by
  rcases h with hempty | hwait
  · exact ⟨.stopempty, rfl, hempty⟩
  · exact ⟨.hdrwait, rfl, hwait⟩

/-- A selected *stop* changes nothing (R158, R159). -/
theorem runOutcome_of_stop {s : State} {o : RxOutcome} (hrow : RowCondition s o) (hstop : o.isStop = true) :
    runOutcome o s = .next s := by
  cases o with
  | stopempty => exact whenSelected_of_rowCondition hrow fun _ => rfl
  | hdrwait => exact whenSelected_of_rowCondition hrow fun _ => rfl
  | s1hit | s1miss | s2hit | s2miss | frameok | framebad => cases hstop

/-- In a quiescent state no RX.STEP changes anything: the selected outcome is a *stop* and the others are held (R18, R164). -/
theorem Quiescent.runOutcome {s : State} (h : Quiescent s) (o : RxOutcome) : runOutcome o s = .next s := by
  obtain ⟨o', hstop, hrow⟩ := h.exists_stop
  by_cases ho : o' = o
  · exact ho ▸ runOutcome_of_stop hrow hstop
  · obtain ⟨fs, hf, hd⟩ := selected_of_rowCondition hrow
    exact runOutcome_of_not_selected hf (hd.trans_ne ho)

/-- In a quiescent state RX.DRAIN ends with its first RX.STEP (R165). -/
theorem Quiescent.execRxDrain {s : State} (h : Quiescent s) : execRxDrain s = .next s := by
  obtain ⟨o, hstop, hrow⟩ := h.exists_stop
  exact (drainLoop_succ (rxOutcome_of_rowCondition hrow) (h.runOutcome o)).trans (if_pos hstop)

/-- In a quiescent state `parse` has nothing more to report, and the buffered bytes are its residue (R170). -/
theorem Quiescent.parse_buffered {s : State} (h : Quiescent s) {bs : List Byte} (hb : s.buffered = .ok bs) :
    parse s.cfg.ckInit s.sync bs = ⟨[], s.sync, bs⟩ := by
  obtain ⟨o, hstop, hrow⟩ := h.exists_stop
  have ho : decodeStream s.cfg s.sync bs = o :=
    Except.ok.inj ((runOutcome_of_buffered hb).1.symm.trans (rxOutcome_of_rowCondition hrow))
  exact parse_stop s.cfg s.sync bs (ho ▸ hstop)

/-! ### The full ring -/

theorem rxSpace_of_full {s : State} (h : s.fill = s.cfg.capacity - 1) : s.rxSpace = 0 := by
  rw [State.rxSpace, h, Nat.sub_self, Nat.zero_min]

/-! ### The obligations -/

/-- Settles O53: all that `parse` gives for the input has been reported, because it gives nothing for the bytes still buffered. -/
theorem endOfARunIsTheParseOfItsInput : Obligations.EndOfARunIsTheParseOfItsInput := by
  rintro s input - hfollows ⟨rfl, hquiescent, -, -⟩
  obtain ⟨bs, hb, hparse⟩ := (followsTheStream_iff s).1 hfollows
  rw [hparse, hquiescent.parse_buffered hb]
  exact ⟨(List.append_nil _).symm, rfl, hb⟩

/-- Settles O58: the framer waits for bytes of its frame that a full ring has no room for. -/
theorem capacityDeadlockHoldsForEver : Obligations.CapacityDeadlockHoldsForEver := by
  intro s length _ hsync hlength hlarge hfull
  have hshort : s.fill < frameSize length := hfull ▸ hlarge
  have hquiescent : Quiescent s := .inr ⟨hsync, .inr ⟨length, hlength, hshort⟩⟩
  refine ⟨fun o => ?_, hquiescent.execRxDrain, fun v hv => execRxWrite_held hv (.inl ?_)⟩
  · rw [exec_toInstr]
    exact hquiescent.runOutcome o
  · rw [rxSpace_of_full hfull]
    exact List.length_pos_iff.2 hv

/-- Settles O2: the next state holds the reset values, and its empty `BUF` has no written cell. -/
theorem resetPutsTheRecordBack : Obligations.ResetPutsTheRecordBack :=
  fun _ => ⟨_, rfl, rfl, rfl, rfl, rfl, fun _ ha => readCell_of_empty rfl ha⟩

end Sys2Proof.Machine
end
